-- ==== Sys2Proof/Word.lean ====
section
/-! DEFINITION. The byte, the one data width of the core. -/

namespace Sys2Proof

/-- One unsigned 8-bit value: a register, a memory cell, an operand (R4 `XLEN`, R5: nothing is signed). -/
abbrev Byte := BitVec 8

/-- The low eight bits of a natural number: the "mod 256" of R6. -/
def byteOf (n : Nat) : Byte := BitVec.ofNat 8 n

end Sys2Proof
end

