-- ==== Sys2Proof/Config.lean ====
section
/-! DEFINITION. The fixed constants of R4 and the one value the spec leaves open. -/

namespace Sys2Proof.Config

/-- `NREG` (R4). -/
def numRegs : Nat := 8

/-- `MEM_SIZE` (R4): addresses 0 to 255. -/
def memSize : Nat := 256

/-- `SP_INDEX` (R4, R13). DESIGN CHOICE of the spec (D1), log 4: unsafe. -/
def spIndex : Fin 8 := 7

/-- `SP_RESET` (R4, R25). -/
def spReset : Byte := 0xF4

/-- Reset value of `x[0]` to `x[6]` (R25). DESIGN CHOICE of the spec (D7), log 1: unsafe. -/
def regReset : Byte := 0x00

/-- The initial PC (R4, R25). DESIGN CHOICE of the spec (D6), log 3: unsafe. -/
def pcReset : Nat := 0

/-- Where the program image is loaded (R4, R34). -/
def loadAddress : Nat := 0

/-- FREE VALUE: the byte a trace shows for an address beyond 255, which the spec leaves unspecified
(R100, D22, I6). No state and no instruction depends on it. Log 17: safe. -/
opaque traceByteBeyond : Nat → Byte

end Sys2Proof.Config
end

