-- ==== Sys2Proof/Machine/State.lean ====
section
/-! DEFINITION. The architectural state (R11), why a step can stop, and the state after reset (R25). -/

namespace Sys2Proof.Machine

/-- The flag register: equal, greater, less (R18). -/
structure Flags where
  e : Bool
  g : Bool
  l : Bool
  deriving DecidableEq, Repr

/-- The error classes of R84. `loadError` belongs to the loader: no core state ever holds it (R90). -/
inductive ErrorClass where
  | decodeError
  | memoryBoundsError
  | registerBoundsError
  | unsupportedAluOperation
  | loadError
  deriving DecidableEq, Repr

/-- A fault record `(class, value, pc)` (R89). -/
structure FaultRecord where
  cls : ErrorClass
  value : Nat
  pc : Nat
  deriving DecidableEq, Repr

/-- The run status (R20). -/
inductive Status where
  | running
  | halted
  | faulted (f : FaultRecord)
  deriving DecidableEq, Repr

/-- An error raised inside a cycle or a load, with the value R84 records for it. The tag of an
unsupported ALU operation is a natural number: DESIGN CHOICE, log 14 (safe). -/
inductive CoreError where
  | decode (opcode : Byte)
  | memoryBounds (address : Nat)
  | registerBounds (operand : Byte)
  | unsupportedAlu (tag : Nat)
  deriving DecidableEq, Repr

/-- Memory (R22) as its bytes that differ from 0x00, by strictly rising address. An unlisted address
reads 0x00, the value memory has at construction (R104 "zeroed"). Log 22. -/
abbrev Memory := List Host.Cell

/-- The architectural state: exactly the tuple of R11. `regs[7]` is the stack pointer (R13); `out` is
oldest first (R21). -/
structure State where
  regs : Vector Byte 8
  pc : Nat
  fl : Flags
  mem : Memory
  status : Status
  out : List Byte
  deriving DecidableEq, Repr

/-- Why a step has no next state. Both are raised by `step` alone, when the run is already over: R56
lets no cycle run then, and D23 asks for a final state that does not step to itself. Both safe (log 10). -/
inductive Fault where
  /-- `step` in a `Halted` state. Safe. -/
  | runHalted
  /-- `step` in a `Faulted(f)` state; `f` is the record the run ended with. Safe. -/
  | runFaulted (f : FaultRecord)
  deriving DecidableEq, Repr

/-- Why a step has no meaning. -/
inductive Refusal where
  /-- An instruction without a meaning yet. No arm of `exec` answers it: all 13 have their meaning. Safe. -/
  | notModelled (mnemonic : String)
  deriving DecidableEq, Repr

/-- No flag set: the reset value of FL (R25). DESIGN CHOICE of the spec (D8), log 2: unsafe. -/
def Flags.clear : Flags := { e := false, g := false, l := false }

/-- The state right after construction with an empty image (R25, R104). A program comes in by
`construct` (log 20). -/
def State.reset : State where
  regs := (Vector.replicate 8 Config.regReset).set 7 Config.spReset
  pc := Config.pcReset
  fl := Flags.clear
  mem := []
  status := .running
  out := []

end Sys2Proof.Machine
end

