-- ==== Sys2Proof/Machine/Flags.lean ====
section
/-! DEFINITION. The flag computation of CMP and the flag register's layout (R18, R19, R72). -/

namespace Sys2Proof.Machine

/-- The three flags CMP writes: unsigned comparison, exactly one set (R72). -/
def compareFlags (p q : Byte) : Flags :=
  if p.toNat = q.toNat then { e := true, g := false, l := false }
  else if q.toNat < p.toNat then { e := false, g := true, l := false }
  else { e := false, g := false, l := true }

/-- FL as a 3-bit value: E at bit 0, G at bit 1, L at bit 2 (R18). Unobservable: DESIGN CHOICE of the
spec (D9), log 18 (safe). -/
def Flags.toBits (f : Flags) : BitVec 3 :=
  BitVec.ofNat 3 (f.e.toNat + 2 * f.g.toNat + 4 * f.l.toNat)

end Sys2Proof.Machine
end

