-- ==== Sys2Proof/Machine/Operands.lean ====
section
/-! DEFINITION. Register operands and the register file (R12 to R15, R47). -/

namespace Sys2Proof.Machine

/-- The register an operand byte names: the whole byte is the index, 8 to 255 raise
`RegisterBoundsError` (R15, R47). -/
def regIndex (operand : Byte) : Except CoreError (Fin 8) :=
  if h : operand.toNat < 8 then .ok ⟨operand.toNat, h⟩ else .error (.registerBounds operand)

/-- `x[r]` (R7). No register is hardwired (R12). -/
def State.reg (s : State) (r : Fin 8) : Byte := s.regs[r]

/-- `x[r] <- v` (R7). -/
def State.setReg (s : State) (r : Fin 8) (v : Byte) : State := { s with regs := s.regs.set r v }

/-- `SP`, that is `x[7]` (R13). -/
def State.sp (s : State) : Byte := s.reg Config.spIndex

/-- `x[7] <- v` (R13). -/
def State.setSp (s : State) (v : Byte) : State := s.setReg Config.spIndex v

end Sys2Proof.Machine
end

