-- ==== Sys2Proof/Machine/Ops.lean ====
section
/-! DEFINITION. The named operations over memory and state, and taking an error (R27, R28, R60). -/

namespace Sys2Proof.Machine

/-- The byte at an address, 0x00 where nothing is listed. -/
def Memory.read : Memory → Nat → Byte
  | [], _ => 0
  | (k, w) :: rest, a => if k = a then w else Memory.read rest a

/-- Puts a byte at an address and keeps the canonical form: writing 0x00 removes the entry. -/
def Memory.write : Memory → Nat → Byte → Memory
  | [], a, v => if v = 0 then [] else [(a, v)]
  | (k, w) :: rest, a, v =>
    if a < k then (if v = 0 then (k, w) :: rest else (a, v) :: (k, w) :: rest)
    else if a = k then (if v = 0 then rest else (a, v) :: rest)
    else (k, w) :: Memory.write rest a v

/-- The canonical form from address `lo` on: addresses strictly rising and below 256, no byte 0x00. -/
def memoryWfFrom : Nat → Memory → Bool
  | _, [] => true
  | lo, (k, w) :: rest => decide (lo ≤ k) && decide (k < Config.memSize) && w != 0 && memoryWfFrom (k + 1) rest

/-- The canonical form of memory (log 22). -/
def Memory.wf (m : Memory) : Bool := memoryWfFrom 0 m

/-- Memory replaced as a whole. -/
def State.setMem (s : State) (m : Memory) : State := { s with mem := m }

/-- `MemRead(addr, 1)` (R27). -/
def memRead (address : Nat) (s : State) : Except CoreError Byte :=
  if Config.memSize ≤ address then .error (.memoryBounds address) else .ok (s.mem.read address)

/-- `MemWrite(addr, 1, v)` (R28). -/
def memWrite (address : Nat) (v : Byte) (s : State) : Except CoreError State :=
  if Config.memSize ≤ address then .error (.memoryBounds address)
  else .ok (s.setMem (s.mem.write address v))

/-- `pc <- target` (R7). -/
def State.setPc (s : State) (target : Nat) : State := { s with pc := target }

/-- The sequential advance: integer addition with no wrap (R6, R17, R61). -/
def State.advance (s : State) (n : Nat) : State := s.setPc (s.pc + n)

/-- `FL <- f` (R7). -/
def State.setFlags (s : State) (f : Flags) : State := { s with fl := f }

/-- `status <- st` (R7). -/
def State.setStatus (s : State) (st : Status) : State := { s with status := st }

/-- `Emit(v)`: append to the output port's sequence (R7, R21). -/
def State.emit (s : State) (v : Byte) : State := { s with out := s.out ++ [v] }

/-- `x[7] <- x[7] -8 1`, wrapping (R14; D4, log 7). -/
def State.decSp (s : State) : State := s.setSp (s.sp - 1)

/-- `x[7] <- x[7] +8 1`, wrapping (R14; D4, log 7). -/
def State.incSp (s : State) : State := s.setSp (s.sp + 1)

/-- The class of an error (R84). -/
def CoreError.cls : CoreError → ErrorClass
  | .decode _ => .decodeError
  | .memoryBounds _ => .memoryBoundsError
  | .registerBounds _ => .registerBoundsError
  | .unsupportedAlu _ => .unsupportedAluOperation

/-- The value R84 records for an error. -/
def CoreError.value : CoreError → Nat
  | .decode op => op.toNat
  | .memoryBounds a => a
  | .registerBounds v => v.toNat
  | .unsupportedAlu tag => tag

/-- The numeric labels of R84. DESIGN CHOICE of the spec (D29), log 21: safe, no program reads them. -/
def ErrorClass.code : ErrorClass → Nat
  | .decodeError => 1
  | .memoryBoundsError => 2
  | .registerBoundsError => 3
  | .unsupportedAluOperation => 4
  | .loadError => 5

/-- TAKING AN ERROR (R60, R89, R91): nothing is saved, masked or vectored; the cycle's start state
stays as it is but for `status <- Faulted(class, value, pc)`. There is no return from it (R92). -/
def takeError (e : CoreError) (s : State) : State :=
  s.setStatus (.faulted { cls := e.cls, value := e.value, pc := s.pc })

/-- The commit of a cycle that started in `s` (R60): all of its writes, or only the fault. -/
def commit (s : State) : Except CoreError State → Host.Outcome State Fault Refusal
  | .ok s' => .next s'
  | .error e => .next (takeError e s)

/-- What a step answers when the run is over: no cycle runs in `Halted` or `Faulted(f)` (R56).
DEDUCED from R56 and D23, log 10 (safe). -/
def whenFinal (s : State) : Option (Host.Outcome State Fault Refusal) :=
  match s.status with
  | .running => none
  | .halted => some (.fault .runHalted)
  | .faulted f => some (.fault (.runFaulted f))

/-- A byte placed in memory from outside the core; an address memory does not have keeps nothing. -/
def State.placeByte (s : State) (address : Nat) (v : Byte) : State :=
  if Config.memSize ≤ address then s else s.setMem (s.mem.write address v)

end Sys2Proof.Machine
end

