-- ==== Sys2Proof/Machine/Alu.lean ====
section
/-! DEFINITION. The ALU and ADD, MUL, CMP (42_alu.md). -/

namespace Sys2Proof.Machine

/-- What the ALU is asked to do. `other` stands for every tag it does not support (R73). -/
inductive AluOp where
  | add
  | mul
  | cmp
  | other (tag : Nat)
  deriving DecidableEq, Repr

/-- The two kinds of result in R69's table. -/
inductive AluResult where
  | value (v : Byte)
  | flags (f : Flags)
  deriving DecidableEq, Repr

/-- The ALU (R69): exact unsigned arithmetic reduced modulo 256, or the flags of a comparison; any
other tag fails loudly (R73, R88; log 14). -/
def alu (op : AluOp) (p q : Byte) : Except CoreError AluResult :=
  match op with
  | .add => .ok (.value (byteOf (p.toNat + q.toNat)))
  | .mul => .ok (.value (byteOf (p.toNat * q.toNat)))
  | .cmp => .ok (.flags (compareFlags p q))
  | .other tag => .error (.unsupportedAlu tag)

/-- Where an ALU result goes: a value to `x[a]`, flags to FL (R69). -/
def writeAluResult (s : State) (a : Fin 8) : AluResult → State
  | .value v => s.setReg a v
  | .flags f => s.setFlags f

/-- One ALU instruction: both operands are checked, both registers read, then the result written
(R58, R69); every ALU instruction is three bytes long. -/
def applyAlu (op : AluOp) (operandA operandB : Byte) (s : State) : Host.Outcome State Fault Refusal :=
  commit s do
    let a ← regIndex operandA
    let b ← regIndex operandB
    let r ← alu op (s.reg a) (s.reg b)
    return (writeAluResult s a r).advance 3

/-- ADD (R70). -/
def execAdd (operandA operandB : Byte) (s : State) : Host.Outcome State Fault Refusal :=
  applyAlu .add operandA operandB s

/-- MUL (R71). -/
def execMul (operandA operandB : Byte) (s : State) : Host.Outcome State Fault Refusal :=
  applyAlu .mul operandA operandB s

/-- CMP (R72). -/
def execCmp (operandA operandB : Byte) (s : State) : Host.Outcome State Fault Refusal :=
  applyAlu .cmp operandA operandB s

end Sys2Proof.Machine
end

