-- ==== Sys2Proof/Machine/Control.lean ====
section
/-! DEFINITION. CALL, RET, JMP, JEQ, JNE (44_control.md). Every target is an absolute byte (R77). -/

namespace Sys2Proof.Machine

/-- The byte CALL pushes, `pc + 2`. It fits whenever a CALL is fetched (R30); the reduction modulo 256
matters only in states no fetch reaches: DEDUCED, log 9 (safe). -/
def returnByte (s : State) : Byte := byteOf (s.pc + 2)

/-- CALL (R78): the target is read after the push, so `CALL R7` jumps to the new SP (D3, log 6). -/
def execCall (operandA : Byte) (s : State) : Host.Outcome State Fault Refusal :=
  commit s do
    let t ← regIndex operandA
    let s1 := s.decSp
    let s2 ← memWrite s1.sp.toNat (returnByte s) s1
    return s2.setPc (s2.reg t).toNat

/-- RET (R79). -/
def execRet (s : State) : Host.Outcome State Fault Refusal :=
  commit s do
    let v ← memRead s.sp.toNat s
    return (s.setPc v.toNat).incSp

/-- A two-byte jump through a register: to `x[operand_a]` when taken, else past it. The operand is
checked either way (R58; D19, log 13). -/
def jumpWhen (taken : Bool) (operandA : Byte) (s : State) : Host.Outcome State Fault Refusal :=
  commit s do
    let t ← regIndex operandA
    return if taken then s.setPc (s.reg t).toNat else s.advance 2

/-- JMP (R80). -/
def execJmp (operandA : Byte) (s : State) : Host.Outcome State Fault Refusal :=
  jumpWhen true operandA s

/-- JEQ (R81). -/
def execJeq (operandA : Byte) (s : State) : Host.Outcome State Fault Refusal :=
  jumpWhen s.fl.e operandA s

/-- JNE (R82). -/
def execJne (operandA : Byte) (s : State) : Host.Outcome State Fault Refusal :=
  jumpWhen (!s.fl.e) operandA s

end Sys2Proof.Machine
end

