-- ==== Sys2Proof/Machine/Stack.lean ====
section
/-! DEFINITION. PUSH and POP (43_stack.md). Statements run in the written order (R8; D3, log 6). -/

namespace Sys2Proof.Machine

/-- PUSH (R75): the source register is read after SP's decrement, so `PUSH R7` stores the new SP. -/
def execPush (operandA : Byte) (s : State) : Host.Outcome State Fault Refusal :=
  commit s do
    let r ← regIndex operandA
    let s1 := s.decSp
    let s2 ← memWrite s1.sp.toNat (s1.reg r) s1
    return s2.advance 2

/-- POP (R76): SP is incremented after the destination is written, so `POP R7` leaves the popped
byte plus 1. -/
def execPop (operandA : Byte) (s : State) : Host.Outcome State Fault Refusal :=
  commit s do
    let d ← regIndex operandA
    let v ← memRead s.sp.toNat s
    return (s.setReg d v).incSp.advance 2

end Sys2Proof.Machine
end

