-- ==== Sys2Proof/Machine/System.lean ====
section
/-! DEFINITION. HLT, LDI, PRN (41_system_data.md). -/

namespace Sys2Proof.Machine

/-- HLT (R66): `pc` keeps HLT's own address (D13, log 12). -/
def execHlt (s : State) : Host.Outcome State Fault Refusal :=
  commit s (.ok (s.setStatus .halted))

/-- LDI (R67). -/
def execLdi (operandA imm : Byte) (s : State) : Host.Outcome State Fault Refusal :=
  commit s do
    let d ← regIndex operandA
    return (s.setReg d imm).advance 3

/-- PRN (R68). The port takes the byte and never fails (D16, log 19). -/
def execPrn (operandA : Byte) (s : State) : Host.Outcome State Fault Refusal :=
  commit s do
    let r ← regIndex operandA
    return (s.emit (s.reg r)).advance 2

end Sys2Proof.Machine
end

