-- ==== Sys2Proof/Syntax.lean ====
section
/-! DEFINITION. The instructions of spec/opcode_table.json and the bytes a cycle fetches. -/

namespace Sys2Proof

/-- The 13 instructions of R46. Every operand is the whole operand byte, unmasked (R47): a register
operand of 8 or more can be written down here and is what `wellFormed` rejects. An operand the row
marks `-` is not part of the instruction. -/
inductive Instr where
  | hlt
  | ldi (operandA imm : Byte)
  | prn (operandA : Byte)
  | add (operandA operandB : Byte)
  | mul (operandA operandB : Byte)
  | cmp (operandA operandB : Byte)
  | push (operandA : Byte)
  | pop (operandA : Byte)
  | call (operandA : Byte)
  | ret
  | jmp (operandA : Byte)
  | jeq (operandA : Byte)
  | jne (operandA : Byte)
  deriving DecidableEq, Repr

/-- The operands of kind `reg` of an instruction's row, `operand_a` first (R46, R47). -/
def Instr.regOperands : Instr → List Byte
  | .hlt => []
  | .ldi a _ => [a]
  | .prn a => [a]
  | .add a b => [a, b]
  | .mul a b => [a, b]
  | .cmp a b => [a, b]
  | .push a => [a]
  | .pop a => [a]
  | .call a => [a]
  | .ret => []
  | .jmp a => [a]
  | .jeq a => [a]
  | .jne a => [a]

/-- The three bytes every cycle fetches, whatever the operand count (R42, R49). They are values inside
one cycle, not state (R24). -/
structure Fetched where
  opcode : Byte
  operandA : Byte
  operandB : Byte
  deriving DecidableEq, Repr

end Sys2Proof
end

