-- ==== Sys2Proof/WellFormed.lean ====
section
/-! DEFINITION. When an instruction term is one the decoder can produce. -/

namespace Sys2Proof

/-- A register index is in range when it is less than 8 (R15). -/
def regInRange (operand : Byte) : Bool := operand.toNat < 8

/-- Every `reg` operand of the row is in range (R47, R58). An immediate is never checked (R48). -/
def Instr.wellFormed (i : Instr) : Bool := i.regOperands.all regInRange

end Sys2Proof
end

