-- ==== Sys2Proof/Decode.lean ====
section
/-! DEFINITION. Decoding (R42 to R50, R58), total on any three bytes, and the encoder. -/

namespace Sys2Proof

/-- Why decoding rejects. `undefinedOpcode`: one of the 243 bytes outside R46 (R50).
`registerOutOfRange`: a `reg` operand of 8 or more (R47). -/
inductive DecodeReject where
  | undefinedOpcode (opcode : Byte)
  | registerOutOfRange (operand : Byte)
  deriving DecidableEq, Repr

/-- The opcode map of R46, matched on the whole opcode byte (R45). -/
def lookupOpcode (w : Fetched) : Option Instr :=
  match w.opcode.toNat with
  | 0b00000001 => some .hlt
  | 0b10000010 => some (.ldi w.operandA w.operandB)
  | 0b01000111 => some (.prn w.operandA)
  | 0b10100000 => some (.add w.operandA w.operandB)
  | 0b10100010 => some (.mul w.operandA w.operandB)
  | 0b10100111 => some (.cmp w.operandA w.operandB)
  | 0b01000101 => some (.push w.operandA)
  | 0b01000110 => some (.pop w.operandA)
  | 0b01010000 => some (.call w.operandA)
  | 0b00010001 => some .ret
  | 0b01010100 => some (.jmp w.operandA)
  | 0b01010101 => some (.jeq w.operandA)
  | 0b01010110 => some (.jne w.operandA)
  | _ => none

/-- The operands the decoder checks: every `reg` operand of the row, taken or not (R58, D19; log 13). -/
def checkedOperands (i : Instr) : List Byte := i.regOperands

/-- Decoding as R58 orders it: the opcode first, then `operand_a`, then `operand_b`. -/
def decode (w : Fetched) : Except DecodeReject Instr :=
  match lookupOpcode w with
  | none => .error (.undefinedOpcode w.opcode)
  | some i =>
    match (checkedOperands i).find? (fun v => !regInRange v) with
    | some v => .error (.registerOutOfRange v)
    | none => .ok i

/-- The operand count held in bits 7:6 of the opcode byte (R43). -/
def operandCount (opcode : Byte) : Nat := (opcode >>> 6).toNat

/-- The length of an instruction in bytes, `N + 1` (R43). -/
def instrLength (opcode : Byte) : Nat := operandCount opcode + 1

/-- The bytes of an instruction at ascending addresses (R30, R42, R46). -/
def encode : Instr → List Byte
  | .hlt => [0x01]
  | .ldi a v => [0x82, a, v]
  | .prn a => [0x47, a]
  | .add a b => [0xA0, a, b]
  | .mul a b => [0xA2, a, b]
  | .cmp a b => [0xA7, a, b]
  | .push a => [0x45, a]
  | .pop a => [0x46, a]
  | .call a => [0x50, a]
  | .ret => [0x11]
  | .jmp a => [0x54, a]
  | .jeq a => [0x55, a]
  | .jne a => [0x56, a]

/-- The three bytes of a table word: bit 0 is the least significant bit of the first byte, and every bit
from `nbits` up is 0. -/
def tableWordBytes (nbits w : Nat) : Fetched :=
  let bits := w % 2 ^ nbits
  { opcode := byteOf bits, operandA := byteOf (bits / 2 ^ 8), operandB := byteOf (bits / 2 ^ 16) }

/-- What the decoder reads from an instruction given as a table word. -/
def decodeTableWord (nbits w : Nat) : Option Instr :=
  match decode (tableWordBytes nbits w) with
  | .ok i => some i
  | .error _ => none

end Sys2Proof
end

