-- ==== Sys2Proof/Machine/Fetch.lean ====
section
/-! DEFINITION. The fetch and decode parts of a cycle (R55, R57, R58). -/

namespace Sys2Proof.Machine

/-- The three reads of R57, in order, each with its bounds check. DESIGN CHOICE of the spec (D5),
log 8 (safe). -/
def fetch (s : State) : Except CoreError Fetched := do
  let opcode ← memRead s.pc s
  let operandA ← memRead (s.pc + 1) s
  let operandB ← memRead (s.pc + 2) s
  return { opcode := opcode, operandA := operandA, operandB := operandB }

/-- The error a decoding rejection raises (R58). -/
def rejectError : DecodeReject → CoreError
  | .undefinedOpcode op => .decode op
  | .registerOutOfRange v => .registerBounds v

/-- Steps 1 and 2 of the cycle (R55): the instruction at `pc`, or the first error in R93's order. -/
def fetchDecode (s : State) : Except CoreError Instr := do
  let w ← fetch s
  match decode w with
  | .ok i => return i
  | .error r => throw (rejectError r)

end Sys2Proof.Machine
end

