-- ==== Sys2Proof/Machine/Step.lean ====
section
/-! DEFINITION. One cycle (R55). -/

namespace Sys2Proof.Machine

/-- One cycle of the dispatcher: nothing runs when the run is over (R56); otherwise fetch and decode,
whose first error ends the cycle (R60), then the handler (R59). -/
def step (s : State) : Host.Outcome State Fault Refusal :=
  match whenFinal s with
  | some o => o
  | none =>
    match fetchDecode s with
    | .error e => .next (takeError e s)
    | .ok i => exec i s

/-- `s` with an instruction, given as a table word, stored at the three bytes the next cycle fetches
(R57). Nothing else changes; an address above 255 does not exist and keeps nothing (log 20). -/
def State.withFetchWord (s : State) (nbits w : Nat) : State :=
  let b := tableWordBytes nbits w
  ((s.placeByte s.pc b.opcode).placeByte (s.pc + 1) b.operandA).placeByte (s.pc + 2) b.operandB

end Sys2Proof.Machine
end

