-- ==== Sys2Proof/Machine/Boot.lean ====
section
/-! DEFINITION. Construction, which is reset and load (R103 to R105). -/

namespace Sys2Proof.Machine

/-- The load of R104: byte after byte by `MemWrite`, stopping at the first error. An image that does
not fit faults at its write of byte 256, the bytes before it loaded (R105; D17, log 15). -/
def loadFrom : Nat → List Byte → State → State
  | _, [], s => s
  | address, b :: rest, s =>
    match memWrite address b s with
    | .ok s' => loadFrom (address + 1) rest s'
    | .error e => takeError e s

/-- `Construct(image)` (R98, R104, R105). -/
def construct (image : List Byte) : State := loadFrom Config.loadAddress image State.reset

end Sys2Proof.Machine
end

