-- ==== Sys2Proof/Machine/HostPort.lean ====
section
/-! DEFINITION. The host's operations on a constructed core (R98, R100). `Construct` is in Boot.lean. -/

namespace Sys2Proof.Machine

/-- `Step()`: one cycle, or nothing if the state is final (R56, R98). -/
def hostStep (s : State) : State :=
  match step s with
  | .next s' => s'
  | .fault _ => s
  | .refused _ => s

/-- `Run(N)`: up to `N` cycles, stopping early when the status leaves `Running` (R62; D30, log 26). -/
def hostRun : Nat → State → State
  | 0, s => s
  | n + 1, s =>
    match s.status with
    | .running => hostRun n (hostStep s)
    | .halted => s
    | .faulted _ => s

/-- What `Inspect()` gives back (R98). -/
structure Inspection where
  regs : List Byte
  pc : Nat
  fl : BitVec 3
  mem : List Byte
  status : Status
  out : List Byte
  deriving DecidableEq, Repr

/-- `Inspect()`: read-only copies of the whole state (R98). -/
def inspect (s : State) : Inspection where
  regs := s.regs.toList
  pc := s.pc
  fl := s.fl.toBits
  mem := (List.range Config.memSize).map s.mem.read
  status := s.status
  out := s.out

/-- What a trace shows: PC, the three bytes from PC on, the registers (R100). Its text format is the
sink's (R3). -/
structure TraceSnapshot where
  pc : Nat
  bytes : List Byte
  regs : List Byte
  deriving DecidableEq, Repr

/-- The byte a trace shows for an address: no core access, so no error; beyond 255 a free value
(R100; D22, log 17). -/
def traceByte (s : State) (address : Nat) : Byte :=
  if Config.memSize ≤ address then Config.traceByteBeyond address else s.mem.read address

/-- The trace sink's observation (R100). It does not show FL or `out`. -/
def traceSnapshot (s : State) : TraceSnapshot where
  pc := s.pc
  bytes := [traceByte s s.pc, traceByte s (s.pc + 1), traceByte s (s.pc + 2)]
  regs := s.regs.toList

end Sys2Proof.Machine
end

