-- ==== Sys2Proof/Machine/Loader.lean ====
section
/-! DEFINITION. The loader collaborator's contract: a text listing to a byte image (R53, R90, R106).
Disk access is outside (R3): a listing that cannot be read is `none`. -/

namespace Sys2Proof.Machine

/-- White space trimmed from a line. The spec says "whitespace" only: DESIGN CHOICE, log 16 (safe). -/
def isBlank (c : Char) : Bool :=
  c == ' ' || c == '\t' || c == '\n' || c == '\r' || c == '\x0b' || c == '\x0c'

/-- The lines of a listing, cut at each line feed (DESIGN CHOICE, log 16). -/
def listingLines : List Char → List (List Char)
  | [] => [[]]
  | c :: rest =>
    if c == '\n' then [] :: listingLines rest
    else
      match listingLines rest with
      | [] => [[c]]
      | line :: more => (c :: line) :: more

/-- A line without its comment, from the first `#` on (R53). -/
def stripComment (line : List Char) : List Char := line.takeWhile (fun c => c != '#')

/-- A line without leading and trailing white space (R53). -/
def trimBlanks (line : List Char) : List Char :=
  ((line.dropWhile isBlank).reverse.dropWhile isBlank).reverse

/-- A character is a binary digit. -/
def isBinaryDigit (c : Char) : Bool := c == '0' || c == '1'

/-- The value of binary digits, most significant first. -/
def binaryValue (digits : List Char) : Nat :=
  digits.foldl (fun n c => 2 * n + (if c == '1' then 1 else 0)) 0

/-- A token of 1 to 8 binary digits as a byte (R53; D18, log 16). -/
def parseToken (token : List Char) : Option Byte :=
  if token.length ≤ 8 && !token.isEmpty && token.all isBinaryDigit then some (byteOf (binaryValue token)) else none

/-- The image of a listing: one byte for each line that is not empty once stripped and trimmed; any
other token is a `LoadError` (R53, R90). -/
def parseLines : List (List Char) → Except ErrorClass (List Byte)
  | [] => .ok []
  | line :: rest =>
    match trimBlanks (stripComment line) with
    | [] => parseLines rest
    | c :: cs =>
      match parseToken (c :: cs) with
      | none => .error .loadError
      | some b =>
        match parseLines rest with
        | .ok bytes => .ok (b :: bytes)
        | .error e => .error e

/-- A listing to an image; an unreadable file is a `LoadError` (R90). -/
def loadImage : Option (List Char) → Except ErrorClass (List Byte)
  | none => .error .loadError
  | some text => parseLines (listingLines text)

/-- Boot from a listing: after a `LoadError` no core is built (R106). -/
def bootListing (file : Option (List Char)) : Except ErrorClass State :=
  match loadImage file with
  | .ok image => .ok (construct image)
  | .error e => .error e

end Sys2Proof.Machine
end

