-- ==== Sys2Proof/Safety.lean ====
section
/-! DEFINITION. The terms claims use: what a cycle fetches, the state after an error, the invariant of every
run, and the lines of a listing. -/

namespace Sys2Proof.Machine

/-- The 13 opcode bytes of R46. -/
def definedOpcodes : List Byte :=
  [0x01, 0x82, 0x47, 0xA0, 0xA2, 0xA7, 0x45, 0x46, 0x50, 0x11, 0x54, 0x55, 0x56]

/-- The state is one in which a cycle runs and fetches these three bytes (R56, R57). -/
def State.Fetches (s : State) (w : Fetched) : Prop :=
  s.status = .running ∧ s.pc ≤ 253 ∧
    s.mem.read s.pc = w.opcode ∧ s.mem.read (s.pc + 1) = w.operandA ∧ s.mem.read (s.pc + 2) = w.operandB

/-- A faulted state that is `s` in all but its status (R60, R89). -/
def State.faultedWith (s : State) (cls : ErrorClass) (value : Nat) : State :=
  { s with status := .faulted { cls := cls, value := value, pc := s.pc } }

/-- A cycle at `pc` 254, 255 or 256 ends in `MemoryBoundsError(256)`, whatever lies there (R57). -/
def State.TopFaults (s : State) : Prop :=
  s.status = .running → 254 ≤ s.pc → s.pc ≤ 256 → step s = .next (s.faultedWith .memoryBoundsError 256)

/-- The status agrees with the rest of the state: `Halted` stands at a HLT (R66), and a fault record says
what R84 and R89 say about the byte that caused it. A `MemoryBoundsError` at `pc` 0 is the load's (R105). -/
def State.StatusOk (s : State) : Prop :=
  match s.status with
  | .running => True
  | .halted => s.pc ≤ 253 ∧ s.mem.read s.pc = 0x01
  | .faulted f =>
    f.pc = s.pc ∧
      ((f.cls = .decodeError ∧ s.pc ≤ 253 ∧ f.value = (s.mem.read s.pc).toNat ∧
          s.mem.read s.pc ∉ definedOpcodes) ∨
        (f.cls = .memoryBoundsError ∧ f.value = 256 ∧ (254 ≤ s.pc ∨ s.pc = 0)) ∨
        (f.cls = .registerBoundsError ∧ s.pc ≤ 253 ∧ s.mem.read s.pc ∈ definedOpcodes ∧ 8 ≤ f.value ∧
          (f.value = (s.mem.read (s.pc + 1)).toNat ∨ f.value = (s.mem.read (s.pc + 2)).toNat)))

/-- What holds in every state a run reaches: canonical memory, `pc` at most 256 (R17), `FL` one of `{}`,
`{E}`, `{G}`, `{L}` (R19), and a status that agrees with the rest. -/
structure State.Inv (s : State) : Prop where
  memWf : s.mem.wf = true
  pcBound : s.pc ≤ 256
  flagsExclusive : s.fl ∈ [Flags.clear, ⟨true, false, false⟩, ⟨false, true, false⟩, ⟨false, false, true⟩]
  statusOk : s.StatusOk

/-- A listing's text from its lines: a line feed between any two (DESIGN CHOICE, log 16). -/
def joinLines : List (List Char) → List Char
  | [] => []
  | [line] => line
  | line :: next :: rest => line ++ '\n' :: joinLines (next :: rest)

/-- What stands after the token of a line: nothing, or a `#` and a comment (R53). -/
def commentText : Option (List Char) → List Char
  | none => []
  | some comment => '#' :: comment

/-- White space inside one line: blank characters other than the line feed (DESIGN CHOICE, log 16). -/
def BlanksOnly (cs : List Char) : Prop := ∀ c ∈ cs, isBlank c = true ∧ c ≠ '\n'

/-- A line as R53 reads one: white space, binary digits (none for a line that is skipped), white space, and
perhaps a comment. -/
structure ListingLine where
  before : List Char
  digits : List Bool
  after : List Char
  comment : Option (List Char)

/-- The characters of a line, a set bit written `1` and a clear one `0`. -/
def ListingLine.text (line : ListingLine) : List Char :=
  line.before ++ line.digits.map (fun b => if b then '1' else '0') ++ line.after ++ commentText line.comment

/-- A line R53 accepts: at most 8 digits, white space around them, all on one line. -/
def ListingLine.Accepted (line : ListingLine) : Prop :=
  BlanksOnly line.before ∧ BlanksOnly line.after ∧ line.digits.length ≤ 8 ∧ '\n' ∉ commentText line.comment

/-- The byte a line stands for, its first digit the most significant; none for a line without digits. -/
def ListingLine.byte? (line : ListingLine) : Option Byte :=
  if line.digits.isEmpty then none
  else some (BitVec.ofNat 8 (line.digits.foldl (fun n b => 2 * n + b.toNat) 0))

/-- A token R53 does not accept, as it stands between the white space of a line: more than 8 characters, or one
that is no binary digit (a second token's blank among them). -/
structure BadToken (token : List Char) : Prop where
  oneLine : '\n' ∉ token
  noComment : '#' ∉ token
  firstNotBlank : ∃ c, token.head? = some c ∧ isBlank c = false
  lastNotBlank : ∃ c, token.getLast? = some c ∧ isBlank c = false
  bad : 8 < token.length ∨ ∃ c ∈ token, c ≠ '0' ∧ c ≠ '1'

end Sys2Proof.Machine
end

