-- ==== Sys2Proof/Certificates/Slice0/Obligations.lean ====
section
/-! DEFINITION. The statements for the provers, each with the rule of spec/ it formalises. A state is written
as a record update, so an equation `exec i s = .next t` says the whole next state: its result, its frame and
that the instruction completes. -/

open Sys2Proof Sys2Proof.Machine

/-! ## Reset, construction and the invariant -/

/-- R25, R104: the state after construction with nothing loaded. The values of `x[0..6]`, `pc` and FL are the spec's
own decisions D7, D6, D8 (log 1, 3, 2). -/
def Obligations.ResetValues : Prop :=
  (∀ (r : Nat) (h : r < 7), State.reset.regs[r] = 0x00) ∧ State.reset.regs[7] = 0xF4 ∧
  State.reset.pc = 0 ∧ State.reset.fl = { e := false, g := false, l := false } ∧
  (∀ a, State.reset.mem.read a = 0x00) ∧ State.reset.status = .running ∧ State.reset.out = []

/-- The invariant of `StepKeepsInvariant` holds at reset. -/
def Obligations.InvariantAtReset : Prop := State.reset.Inv

/-- R104: an image that fits is copied from address 0, the rest of memory is zero, and everything else is the reset
state. -/
def Obligations.ConstructLoadsImage : Prop :=
  ∀ image : List Byte, image.length ≤ 256 →
    (∀ (k : Nat) (h : k < image.length), (construct image).mem.read k = image[k]) ∧
    (∀ a, image.length ≤ a → (construct image).mem.read a = 0x00) ∧
    construct image = { State.reset with mem := (construct image).mem }

/-- R105: a longer image leaves a core that faulted at its write of byte 256 (the spec's decision D17, log 15), with
the first 256 bytes in memory. No cycle of it runs. -/
def Obligations.OversizedImageFaults : Prop :=
  ∀ image : List Byte, 256 < image.length →
    (∀ (k : Nat) (h : k < image.length), k < 256 → (construct image).mem.read k = image[k]) ∧
    construct image =
      { State.reset with
        mem := (construct image).mem
        status := .faulted { cls := .memoryBoundsError, value := 256, pc := 0 } } ∧
    ∀ n, hostRun n (construct image) = construct image

/-- Every constructed core meets the invariant, whatever its image. -/
def Obligations.ConstructMeetsInvariant : Prop := ∀ image : List Byte, (construct image).Inv

/-- R17, R19, R28, R89: every step keeps canonical memory, the bound on `pc`, the flags exclusive and a status that
agrees with the state. -/
def Obligations.StepKeepsInvariant : Prop :=
  ∀ s t : State, s.Inv → step s = .next t → t.Inv

/-- R17, R19, R98: the invariant holds in every state the host can bring about, for every image and every number of
cycles. -/
def Obligations.EveryRunMeetsInvariant : Prop :=
  ∀ (image : List Byte) (n : Nat), (hostRun n (construct image)).Inv

/-! ## Memory -/

/-- R27: `MemRead(addr, 1)`. -/
def Obligations.MemReadChecksBounds : Prop :=
  ∀ (a : Nat) (s : State),
    (256 ≤ a → memRead a s = .error (.memoryBounds a)) ∧
    (a < 256 → memRead a s = .ok (s.mem.read a))

/-- R28: `MemWrite(addr, 1, v)`; the byte written reads back, and every other byte and every other part of the state
is unchanged. That the memory is canonical again is about the model's own form of memory (log 22). -/
def Obligations.MemWriteChecksBounds : Prop :=
  ∀ (a : Nat) (v : Byte) (s : State), s.mem.wf = true →
    (256 ≤ a → memWrite a v s = .error (.memoryBounds a)) ∧
    (a < 256 → ∃ m : Memory, memWrite a v s = .ok { s with mem := m } ∧ m.wf = true ∧
      m.read a = v ∧ ∀ b, b ≠ a → m.read b = s.mem.read b)

/-! ## Encoding and decoding -/

/-- R46: one word of each row decodes to the instruction it stands for, with its operands in their places. -/
def Obligations.TableWordsDecode : Prop :=
  decode ⟨0b00000001, 0xFF, 0xFF⟩ = .ok .hlt ∧
  decode ⟨0b10000010, 0x03, 0xFF⟩ = .ok (.ldi 3 0xFF) ∧
  decode ⟨0b01000111, 0x02, 0xFF⟩ = .ok (.prn 2) ∧
  decode ⟨0b10100000, 0x05, 0x06⟩ = .ok (.add 5 6) ∧
  decode ⟨0b10100010, 0x01, 0x04⟩ = .ok (.mul 1 4) ∧
  decode ⟨0b10100111, 0x07, 0x00⟩ = .ok (.cmp 7 0) ∧
  decode ⟨0b01000101, 0x06, 0xFF⟩ = .ok (.push 6) ∧
  decode ⟨0b01000110, 0x07, 0xFF⟩ = .ok (.pop 7) ∧
  decode ⟨0b01010000, 0x01, 0xFF⟩ = .ok (.call 1) ∧
  decode ⟨0b00010001, 0xFF, 0xFF⟩ = .ok .ret ∧
  decode ⟨0b01010100, 0x02, 0xFF⟩ = .ok (.jmp 2) ∧
  decode ⟨0b01010101, 0x03, 0xFF⟩ = .ok (.jeq 3) ∧
  decode ⟨0b01010110, 0x04, 0xFF⟩ = .ok (.jne 4)

/-- R42, R46, R47: three bytes that begin with the encoding of a well-formed instruction decode to it, whatever
follows the encoding. -/
def Obligations.DecodeOfEncode : Prop :=
  ∀ (i : Instr) (w : Fetched), i.wellFormed = true →
    encode i <+: [w.opcode, w.operandA, w.operandB] → decode w = .ok i

/-- R45, R47: whatever decodes is well-formed, and its bytes begin with the encoding of the instruction decoded;
whatever does not is named: an opcode outside the 13, or the first register operand of 8 or more. -/
def Obligations.EncodeOfDecode : Prop :=
  ∀ w : Fetched,
    (∀ i, decode w = .ok i → i.wellFormed = true ∧ encode i <+: [w.opcode, w.operandA, w.operandB]) ∧
    (∀ op, decode w = .error (.undefinedOpcode op) ↔ op = w.opcode ∧ w.opcode ∉ definedOpcodes) ∧
    (∀ v, decode w = .error (.registerOutOfRange v) → w.opcode ∈ definedOpcodes ∧ 8 ≤ v.toNat ∧
      (v = w.operandA ∨ (w.operandA.toNat < 8 ∧ v = w.operandB)))

/-! ## The cycle -/

/-- R55, R59: a cycle runs the handler of the instruction its three bytes decode to. -/
def Obligations.StepRunsDecodedInstr : Prop :=
  ∀ (s : State) (w : Fetched) (i : Instr), s.Fetches w → decode w = .ok i → step s = exec i s

/-- R57, R93: at 254, 255 and 256 every cycle ends in `MemoryBoundsError(256)`, before any decoding (the spec's
decisions D5 and D12, log 8 and 11). -/
def Obligations.FetchAtTopOfMemoryFaults : Prop := ∀ s : State, s.TopFaults

/-- R85: each of the 243 undefined opcode bytes raises `DecodeError` with the opcode and the PC, nothing else
changes, and the run is over. -/
def Obligations.UndefinedOpcodeFaults : Prop :=
  ((List.range 256).filter (fun n => byteOf n ∉ definedOpcodes)).length = 243 ∧ (0x00 : Byte) ∉ definedOpcodes ∧
  ∀ (s : State) (w : Fetched), s.Fetches w → w.opcode ∉ definedOpcodes →
    step s = .next (s.faultedWith .decodeError w.opcode.toNat) ∧
    ∀ n, hostRun n (s.faultedWith .decodeError w.opcode.toNat) = s.faultedWith .decodeError w.opcode.toNat

/-- R87: a `reg` operand byte of 8 to 255 raises `RegisterBoundsError` with that byte; of two, `operand_a` is
reported. That it holds for an untaken JEQ or JNE is the spec's decision D19 (log 13); the record's pc, the kept
state and the order are its decisions D14, D11, D12 (log 11). -/
def Obligations.RegisterOperandOutOfRangeFaults : Prop :=
  ∀ (s : State) (w : Fetched), s.Fetches w →
    (w.opcode ∈ [0x82, 0x47, 0xA0, 0xA2, 0xA7, 0x45, 0x46, 0x50, 0x54, 0x55, 0x56] → 8 ≤ w.operandA.toNat →
      step s = .next (s.faultedWith .registerBoundsError w.operandA.toNat)) ∧
    (w.opcode ∈ [0xA0, 0xA2, 0xA7] → w.operandA.toNat < 8 → 8 ≤ w.operandB.toNat →
      step s = .next (s.faultedWith .registerBoundsError w.operandB.toNat))

/-- R56, R64: a step request in a final state changes nothing, and no cycle runs there (the spec's decision D23; that
`step` answers a named fault is the model's reading, log 10). -/
def Obligations.FinalStatesStay : Prop :=
  ∀ s : State, s.status ≠ .running →
    hostStep s = s ∧ (∀ n, hostRun n s = s) ∧ (∀ t, step s ≠ .next t) ∧
    (s.status = .halted → step s = .fault .runHalted) ∧
    (∀ f, s.status = .faulted f → step s = .fault (.runFaulted f))

/-- R55, R60: a running core always has a next state: no cycle is stuck and none is refused. -/
def Obligations.RunningStepsHaveNextState : Prop :=
  ∀ s : State, s.status = .running → ∃ t, step s = .next t

/-- R91: a cycle that raises an error commits nothing but the status, with `pc` at the instruction, and the run is
over. The kept state for every error class and the record's pc are the spec's decisions D11 and D14 (log 11);
that `step` answers the fault `runFaulted` there is the model's reading (log 10). -/
def Obligations.FaultingCycleCommitsNothing : Prop :=
  ∀ (s t : State) (f : FaultRecord), step s = .next t → t.status = .faulted f →
    t = { s with status := .faulted f } ∧ f.pc = s.pc ∧
    step t = .fault (.runFaulted f) ∧ ∀ n, hostRun n t = t

/-- R86: the limit of memory is 256; in a run only the fetch raises `MemoryBoundsError`, with address 256; no handler
does, so no stack access does; and the run is over. That the address is always 256 rests on the range of `pc`
(the spec's R17 and decision D10, log 9), and that no stack access can raise it on SP's wrap (its decision D4,
log 7). -/
def Obligations.MemoryBoundsOnlyFromFetch : Prop :=
  (∀ (a : Nat) (s : State), memRead a s = .error (.memoryBounds a) ↔ 256 ≤ a) ∧
  (∀ (s t : State) (f : FaultRecord), s.pc ≤ 256 → step s = .next t → t.status = .faulted f →
    f.cls = .memoryBoundsError → 254 ≤ s.pc ∧ f.value = 256 ∧ ∀ n, hostRun n t = t) ∧
  (∀ (i : Instr) (s t : State) (f : FaultRecord), s.status = .running → exec i s = .next t →
    t.status = .faulted f → f.cls ≠ .memoryBoundsError)

/-- R73: the ALU asked for an operation it does not have fails loudly and writes nothing. The tag's type is the
model's choice (log 14). -/
def Obligations.AluUnsupportedTagFaults : Prop :=
  ∀ (tag : Nat) (a b : Byte) (s : State), a.toNat < 8 → b.toNat < 8 →
    applyAlu (.other tag) a b s = .next (s.faultedWith .unsupportedAluOperation tag)

/-- R73, R84, R88: no step raises `UnsupportedALUOperation`, and no core holds a `LoadError`. -/
def Obligations.NoStepRaisesUnsupportedAlu : Prop :=
  ∀ (s t : State) (f : FaultRecord), step s = .next t → t.status = .faulted f →
    f.cls ≠ .unsupportedAluOperation ∧ f.cls ≠ .loadError

/-- R59: the handler of a well-formed instruction raises nothing: the status stays, or HLT halts. -/
def Obligations.HandlersRaiseNothing : Prop :=
  ∀ (i : Instr) (s t : State), i.wellFormed = true → exec i s = .next t →
    t.status = s.status ∨ (i = .hlt ∧ t.status = .halted)

/-- R101: HLT is the only stop state's cause, it keeps everything for inspection, and nothing wakes a halted core.
That HLT keeps the pc is the spec's decision D13 (log 12); that `step` answers no next state in a halted state is
the model's reading (log 10). -/
def Obligations.HltIsTheOnlyStop : Prop :=
  (∀ s t : State, step s = .next t → t.status = .halted →
    s.mem.read s.pc = 0x01 ∧ t = { s with status := .halted }) ∧
  (∀ s : State, s.status = .halted → (∀ n, hostRun n s = s) ∧ ∀ t, step s ≠ .next t)

/-- R62: `Run(0)` does nothing, `Run(1)` is `Step()`, and a run cut at a cycle boundary and continued is the unbroken
run (the spec's decision D30, log 26). -/
def Obligations.BoundedRunSplits : Prop :=
  ∀ (m n : Nat) (s : State),
    hostRun 0 s = s ∧ hostRun 1 s = hostStep s ∧ hostRun (m + n) s = hostRun n (hostRun m s)

/-! ## What each instruction does -/

/-- R66: HLT stops the run; `pc` keeps HLT's own address (the spec's decision D13, log 12). -/
def Obligations.HltResult : Prop :=
  ∀ (s : State) (x y : Byte),
    exec .hlt s = .next { s with status := .halted } ∧
    (s.Fetches ⟨0x01, x, y⟩ → step s = exec .hlt s)

/-- R67: LDI. What `exec` does at an operand of 8 or more is log 13 (DEDUCED) and the record's pc is the spec's
decision D14 (log 11); the fault at the top of memory is its decisions D5 and D12 (log 8, 11). -/
def Obligations.LdiResult : Prop :=
  ∀ (s : State) (a v : Byte),
    (∀ ha : a.toNat < 8,
      exec (.ldi a v) s = .next { s with regs := s.regs.set a.toNat v, pc := s.pc + 3 }) ∧
    (8 ≤ a.toNat → exec (.ldi a v) s = .next (s.faultedWith .registerBoundsError a.toNat)) ∧
    (s.Fetches ⟨0x82, a, v⟩ → step s = exec (.ldi a v) s) ∧ s.TopFaults

/-- R68: PRN. The port never fails (the spec's decision D16, log 19). What `exec` does at an operand of 8 or more is
log 13 (DEDUCED), and the record's pc is the spec's decision D14 (log 11). -/
def Obligations.PrnResult : Prop :=
  ∀ (s : State) (a x : Byte),
    (∀ ha : a.toNat < 8,
      exec (.prn a) s = .next { s with out := s.out ++ [s.regs[a.toNat]], pc := s.pc + 2 }) ∧
    (8 ≤ a.toNat → exec (.prn a) s = .next (s.faultedWith .registerBoundsError a.toNat)) ∧
    (s.Fetches ⟨0x47, a, x⟩ → step s = exec (.prn a) s)

/-- R70: ADD. What `exec` does at an operand of 8 or more is log 13 (DEDUCED) and the record's pc is the spec's
decision D14 (log 11); the fault at the top of memory is its decisions D5 and D12 (log 8, 11). -/
def Obligations.AddResult : Prop :=
  ∀ (s : State) (a b : Byte),
    (∀ (ha : a.toNat < 8) (hb : b.toNat < 8),
      exec (.add a b) s = .next { s with
        regs := s.regs.set a.toNat
          (BitVec.ofNat 8 ((s.regs[a.toNat].toNat + s.regs[b.toNat].toNat) % 256))
        pc := s.pc + 3 }) ∧
    (8 ≤ a.toNat → exec (.add a b) s = .next (s.faultedWith .registerBoundsError a.toNat)) ∧
    (a.toNat < 8 → 8 ≤ b.toNat → exec (.add a b) s = .next (s.faultedWith .registerBoundsError b.toNat)) ∧
    (s.Fetches ⟨0xA0, a, b⟩ → step s = exec (.add a b) s) ∧ s.TopFaults

/-- R71: MUL. What `exec` does at an operand of 8 or more is log 13 (DEDUCED) and the record's pc is the spec's
decision D14 (log 11); the fault at the top of memory is its decisions D5 and D12 (log 8, 11). -/
def Obligations.MulResult : Prop :=
  ∀ (s : State) (a b : Byte),
    (∀ (ha : a.toNat < 8) (hb : b.toNat < 8),
      exec (.mul a b) s = .next { s with
        regs := s.regs.set a.toNat
          (BitVec.ofNat 8 ((s.regs[a.toNat].toNat * s.regs[b.toNat].toNat) % 256))
        pc := s.pc + 3 }) ∧
    (8 ≤ a.toNat → exec (.mul a b) s = .next (s.faultedWith .registerBoundsError a.toNat)) ∧
    (a.toNat < 8 → 8 ≤ b.toNat → exec (.mul a b) s = .next (s.faultedWith .registerBoundsError b.toNat)) ∧
    (s.Fetches ⟨0xA2, a, b⟩ → step s = exec (.mul a b) s) ∧ s.TopFaults

/-- R72: CMP. What `exec` does at an operand of 8 or more is log 13 (DEDUCED) and the record's pc is the spec's
decision D14 (log 11); the fault at the top of memory is its decisions D5 and D12 (log 8, 11). -/
def Obligations.CmpResult : Prop :=
  ∀ (s : State) (a b : Byte),
    (∀ (ha : a.toNat < 8) (hb : b.toNat < 8),
      (s.regs[a.toNat] = s.regs[b.toNat] →
        exec (.cmp a b) s = .next { s with fl := { e := true, g := false, l := false }, pc := s.pc + 3 }) ∧
      (s.regs[a.toNat].toNat > s.regs[b.toNat].toNat →
        exec (.cmp a b) s = .next { s with fl := { e := false, g := true, l := false }, pc := s.pc + 3 }) ∧
      (s.regs[a.toNat].toNat < s.regs[b.toNat].toNat →
        exec (.cmp a b) s = .next { s with fl := { e := false, g := false, l := true }, pc := s.pc + 3 })) ∧
    (8 ≤ a.toNat → exec (.cmp a b) s = .next (s.faultedWith .registerBoundsError a.toNat)) ∧
    (a.toNat < 8 → 8 ≤ b.toNat → exec (.cmp a b) s = .next (s.faultedWith .registerBoundsError b.toNat)) ∧
    (s.Fetches ⟨0xA7, a, b⟩ → step s = exec (.cmp a b) s) ∧ s.TopFaults

/-- R75: PUSH. SP is `x[7]` (D1), wraps (D4), and the source is read after SP's decrement (D3): the spec's own
decisions, log 4, 7, 6. What `exec` does at an operand of 8 or more is log 13 (DEDUCED), and the record's pc is
the spec's decision D14 (log 11). -/
def Obligations.PushResult : Prop :=
  ∀ (s : State) (a x : Byte),
    (∀ ha : a.toNat < 8,
      exec (.push a) s = .next { s with
        regs := s.regs.set 7 (s.regs[7] - 1)
        mem := s.mem.write (s.regs[7] - 1).toNat ((s.regs.set 7 (s.regs[7] - 1))[a.toNat])
        pc := s.pc + 2 }) ∧
    (8 ≤ a.toNat → exec (.push a) s = .next (s.faultedWith .registerBoundsError a.toNat)) ∧
    (s.Fetches ⟨0x45, a, x⟩ → step s = exec (.push a) s)

/-- R76: POP. SP is incremented after the destination is written (D3, log 6), so `POP R7` leaves the byte popped plus
1. SP is `x[7]` (D1, log 4) and wraps (D4, log 7). What `exec` does at an operand of 8 or more is log 13
(DEDUCED), and the record's pc is the spec's decision D14 (log 11). -/
def Obligations.PopResult : Prop :=
  ∀ (s : State) (a x : Byte),
    (∀ ha : a.toNat < 8, a.toNat ≠ 7 →
      exec (.pop a) s = .next { s with
        regs := (s.regs.set a.toNat (s.mem.read s.regs[7].toNat)).set 7 (s.regs[7] + 1)
        pc := s.pc + 2 }) ∧
    (exec (.pop 7) s = .next { s with
        regs := s.regs.set 7 (s.mem.read s.regs[7].toNat + 1)
        pc := s.pc + 2 }) ∧
    (8 ≤ a.toNat → exec (.pop a) s = .next (s.faultedWith .registerBoundsError a.toNat)) ∧
    (s.Fetches ⟨0x46, a, x⟩ → step s = exec (.pop a) s)

/-- R78: CALL pushes `pc + 2` through `x[7]` (D2, log 5) and jumps to the target read after the push (D3, log 6). The
return byte is `pc + 2` itself wherever a CALL can be fetched; above 253, where none can, that it is `pc + 2`
modulo 256 is the model's choice (log 9, DEDUCED). SP wraps (D4, log 7). What `exec` does at an operand of 8 or
more is log 13 (DEDUCED), and the record's pc is the spec's decision D14 (log 11). -/
def Obligations.CallResult : Prop :=
  ∀ (s : State) (a x : Byte),
    (∀ ha : a.toNat < 8,
      exec (.call a) s = .next { s with
        regs := s.regs.set 7 (s.regs[7] - 1)
        mem := s.mem.write (s.regs[7] - 1).toNat (BitVec.ofNat 8 (s.pc + 2))
        pc := ((s.regs.set 7 (s.regs[7] - 1))[a.toNat]).toNat }) ∧
    (s.pc ≤ 253 → (BitVec.ofNat 8 (s.pc + 2)).toNat = s.pc + 2) ∧
    (8 ≤ a.toNat → exec (.call a) s = .next (s.faultedWith .registerBoundsError a.toNat)) ∧
    (s.Fetches ⟨0x50, a, x⟩ → step s = exec (.call a) s)

/-- R79: RET pops the PC through `x[7]` (D2, log 5), which wraps (D4, log 7). -/
def Obligations.RetResult : Prop :=
  ∀ (s : State) (x y : Byte),
    exec .ret s = .next { s with
      pc := (s.mem.read s.regs[7].toNat).toNat
      regs := s.regs.set 7 (s.regs[7] + 1) } ∧
    (s.Fetches ⟨0x11, x, y⟩ → step s = exec .ret s)

/-- R80: JMP; one to its own address leaves the state as it is. What `exec` does at an operand of 8 or more is log 13
(DEDUCED) and the record's pc is the spec's decision D14 (log 11); the fault at the top of memory is its
decisions D5 and D12 (log 8, 11). -/
def Obligations.JmpResult : Prop :=
  ∀ (s : State) (a x : Byte),
    (∀ ha : a.toNat < 8, exec (.jmp a) s = .next { s with pc := s.regs[a.toNat].toNat } ∧
      (s.regs[a.toNat].toNat = s.pc → exec (.jmp a) s = .next s)) ∧
    (8 ≤ a.toNat → exec (.jmp a) s = .next (s.faultedWith .registerBoundsError a.toNat)) ∧
    (s.Fetches ⟨0x54, a, x⟩ → step s = exec (.jmp a) s) ∧ s.TopFaults

/-- R81: JEQ; its operand is checked whether or not the branch is taken (the spec's decision D19, log 13). What
`exec` does at an operand of 8 or more is log 13 (DEDUCED), and the record's pc is the spec's decision D14 (log
11). -/
def Obligations.JeqResult : Prop :=
  ∀ (s : State) (a x : Byte),
    (∀ ha : a.toNat < 8,
      (s.fl.e = true → exec (.jeq a) s = .next { s with pc := s.regs[a.toNat].toNat }) ∧
      (s.fl.e = false → exec (.jeq a) s = .next { s with pc := s.pc + 2 })) ∧
    (8 ≤ a.toNat → exec (.jeq a) s = .next (s.faultedWith .registerBoundsError a.toNat)) ∧
    (s.Fetches ⟨0x55, a, x⟩ → step s = exec (.jeq a) s)

/-- R82: JNE; its operand is checked whether or not the branch is taken (the spec's decision D19, log 13). What
`exec` does at an operand of 8 or more is log 13 (DEDUCED), and the record's pc is the spec's decision D14 (log
11). -/
def Obligations.JneResult : Prop :=
  ∀ (s : State) (a x : Byte),
    (∀ ha : a.toNat < 8,
      (s.fl.e = false → exec (.jne a) s = .next { s with pc := s.regs[a.toNat].toNat }) ∧
      (s.fl.e = true → exec (.jne a) s = .next { s with pc := s.pc + 2 })) ∧
    (8 ≤ a.toNat → exec (.jne a) s = .next (s.faultedWith .registerBoundsError a.toNat)) ∧
    (s.Fetches ⟨0x56, a, x⟩ → step s = exec (.jne a) s)

/-! ## Frames -/

/-- R67, R70, R71: LDI, ADD and MUL change no register but `operand_a`'s, no flag, no byte of memory, neither status
nor output. -/
def Obligations.LdiAddMulFrame : Prop :=
  ∀ (i : Instr) (a b : Byte) (s t : State), i ∈ [.ldi a b, .add a b, .mul a b] → i.wellFormed = true →
    exec i s = .next t →
    (∀ (r : Nat) (h : r < 8), r ≠ a.toNat → t.regs[r] = s.regs[r]) ∧
    t.fl = s.fl ∧ t.status = s.status ∧ t.out = s.out ∧ ∀ p, t.mem.read p = s.mem.read p

/-- R66, R68, R72: HLT, PRN and CMP change no register and no byte of memory; HLT and PRN no flag; PRN and CMP not
the status; HLT and CMP not the output, which PRN only adds one byte to. -/
def Obligations.HltPrnCmpFrame : Prop :=
  ∀ (i : Instr) (a b : Byte) (s t : State), i ∈ [.hlt, .prn a, .cmp a b] → i.wellFormed = true →
    exec i s = .next t →
    (∀ (r : Nat) (h : r < 8), t.regs[r] = s.regs[r]) ∧ (∀ p, t.mem.read p = s.mem.read p) ∧
    (i ≠ .cmp a b → t.fl = s.fl) ∧ (i ≠ .hlt → t.status = s.status) ∧
    (i ≠ .prn a → t.out = s.out) ∧ (i = .prn a → ∃ v, t.out = s.out ++ [v])

/-- R75, R78: PUSH and CALL change no register but `x[7]`, no byte of memory but the one at the decremented SP, no
flag, neither status nor output. -/
def Obligations.PushCallFrame : Prop :=
  ∀ (i : Instr) (a : Byte) (s t : State), i ∈ [.push a, .call a] → i.wellFormed = true →
    exec i s = .next t →
    (∀ (r : Nat) (h : r < 8), r ≠ 7 → t.regs[r] = s.regs[r]) ∧
    t.fl = s.fl ∧ t.status = s.status ∧ t.out = s.out ∧
    ∀ p, s.decSp.sp.toNat = p → ∀ q, q ≠ p → t.mem.read q = s.mem.read q

/-- R76, R79: POP changes no register but its destination and `x[7]`, RET none but `x[7]`; neither changes a byte of
memory, a flag, the status or the output. -/
def Obligations.PopRetFrame : Prop :=
  ∀ (i : Instr) (a : Byte) (s t : State), i ∈ [.pop a, .ret] → i.wellFormed = true →
    exec i s = .next t →
    (∀ (r : Nat) (h : r < 8), r ≠ 7 → (i = .pop a → r ≠ a.toNat) → t.regs[r] = s.regs[r]) ∧
    t.fl = s.fl ∧ t.status = s.status ∧ t.out = s.out ∧ ∀ p, t.mem.read p = s.mem.read p

/-- R77, R80, R81, R82: JMP, JEQ and JNE change the PC and nothing else. -/
def Obligations.JumpFrame : Prop :=
  ∀ (i : Instr) (a : Byte) (s t : State), i ∈ [.jmp a, .jeq a, .jne a] → i.wellFormed = true →
    exec i s = .next t →
    (∀ (r : Nat) (h : r < 8), t.regs[r] = s.regs[r]) ∧
    t.fl = s.fl ∧ t.status = s.status ∧ t.out = s.out ∧ ∀ p, t.mem.read p = s.mem.read p

/-! ## Rules of the whole machine -/

/-- R19, R72: only a CMP changes FL, and after it exactly one flag is set. -/
def Obligations.FlagsOnlyByCmp : Prop :=
  ∀ s t : State, step s = .next t →
    t.fl = s.fl ∨ (s.mem.read s.pc = 0xA7 ∧
      t.fl ∈ [⟨true, false, false⟩, ⟨false, true, false⟩, ⟨false, false, true⟩])

/-- R21, R68: only a PRN changes the output, by the byte of its register at the end. -/
def Obligations.OutputOnlyByPrn : Prop :=
  ∀ s t : State, step s = .next t →
    t.out = s.out ∨ (s.mem.read s.pc = 0x47 ∧
      ∃ h : (s.mem.read (s.pc + 1)).toNat < 8, t.out = s.out ++ [s.regs[(s.mem.read (s.pc + 1)).toNat]])

/-- R26: only PUSH and CALL change memory, and only the byte at the decremented SP. -/
def Obligations.MemoryOnlyByPushAndCall : Prop :=
  ∀ (s t : State) (p : Nat), step s = .next t → t.mem.read p ≠ s.mem.read p →
    (s.mem.read s.pc = 0x45 ∨ s.mem.read s.pc = 0x50) ∧ p = s.decSp.sp.toNat

/-- R12: a register changes only as the destination of LDI, ADD, MUL or POP, or as the SP of PUSH, POP, CALL or RET.
-/
def Obligations.RegistersOnlyByDestination : Prop :=
  ∀ (s t : State) (r : Nat) (h : r < 8), step s = .next t → t.regs[r] ≠ s.regs[r] →
    (s.mem.read s.pc ∈ [0x82, 0xA0, 0xA2, 0x46] ∧ (s.mem.read (s.pc + 1)).toNat = r) ∨
    (s.mem.read s.pc ∈ [0x45, 0x46, 0x50, 0x11] ∧ r = 7)

/-- R43, R61: the sequential instructions advance the PC by their encoded length, with no wrap. -/
def Obligations.SequentialAdvance : Prop :=
  ∀ (i : Instr) (a b : Byte) (s t : State),
    i ∈ [.ldi a b, .prn a, .add a b, .mul a b, .cmp a b, .push a, .pop a] → i.wellFormed = true →
    exec i s = .next t → t.pc = s.pc + (encode i).length

/-- R76: PUSH then POP of the same register restores every register, SP itself and `PUSH R7`, `POP R7` included. -/
def Obligations.PushThenPopRestores : Prop :=
  ∀ (s : State) (a : Byte), s.mem.wf = true → a.toNat < 8 →
    ∃ t u, exec (.push a) s = .next t ∧ exec (.pop a) t = .next u ∧
      t.sp = s.sp - 1 ∧ u.regs = s.regs ∧ u.pc = s.pc + 4

/-- R78: a CALL and its matching RET resume at the instruction after the CALL, with every register restored. -/
def Obligations.CallThenRetReturns : Prop :=
  ∀ (s : State) (a : Byte), s.mem.wf = true → s.pc ≤ 253 → a.toNat < 8 →
    ∃ t u, exec (.call a) s = .next t ∧ exec .ret t = .next u ∧ u.pc = s.pc + 2 ∧ u.regs = s.regs

/-- R72, R82: after a CMP exactly one of JEQ and JNE is taken: JEQ when the registers compared equal. -/
def Obligations.CmpThenJumps : Prop :=
  ∀ (s : State) (a b k : Byte) (ha : a.toNat < 8) (hb : b.toNat < 8) (hk : k.toNat < 8),
    ∃ t u v, exec (.cmp a b) s = .next t ∧ exec (.jeq k) t = .next u ∧ exec (.jne k) t = .next v ∧
      (s.regs[a.toNat] = s.regs[b.toNat] → u.pc = s.regs[k.toNat].toNat ∧ v.pc = s.pc + 5) ∧
      (s.regs[a.toNat] ≠ s.regs[b.toNat] → u.pc = s.pc + 5 ∧ v.pc = s.regs[k.toNat].toNat)

/-- R39: the byte a PUSH or a CALL stores is the byte the very next cycle fetches from that address. -/
def Obligations.StoreSeenByNextFetch : Prop :=
  ∀ (s t : State) (i : Instr) (a v : Byte) (ha : a.toNat < 8), s.mem.wf = true → s.status = .running →
    ((i = .push a ∧ v = s.decSp.regs[a.toNat]) ∨ (i = .call a ∧ v = byteOf (s.pc + 2))) →
    exec i s = .next t → t.pc ≤ 253 →
    ∃ w, t.Fetches w ∧
      (s.decSp.sp.toNat = t.pc → w.opcode = v) ∧
      (s.decSp.sp.toNat = t.pc + 1 → w.operandA = v) ∧
      (s.decSp.sp.toNat = t.pc + 2 → w.operandB = v)

/-- R19, R21: nothing reads `G`, `L` or the output: two states that differ in these alone step alike in all else. -/
def Obligations.GreaterLessAndOutputUnread : Prop :=
  ∀ (s t : State) (g l : Bool) (o : List Byte), step s = .next t →
    ∃ t', step { s with fl := { s.fl with g := g, l := l }, out := o } = .next t' ∧
      t'.regs = t.regs ∧ t'.pc = t.pc ∧ t'.mem = t.mem ∧ t'.status = t.status ∧ t'.fl.e = t.fl.e

/-- R26: a cycle reads no byte of memory but the three at the PC and the one at SP: memories that agree there give
the same registers, PC, flags, status and output. -/
def Obligations.ReadsOnlyFetchAndStack : Prop :=
  ∀ (s t : State) (m : Memory), step s = .next t →
    m.read s.pc = s.mem.read s.pc → m.read (s.pc + 1) = s.mem.read (s.pc + 1) →
    m.read (s.pc + 2) = s.mem.read (s.pc + 2) → m.read s.sp.toNat = s.mem.read s.sp.toNat →
    ∃ t', step { s with mem := m } = .next t' ∧
      t'.regs = t.regs ∧ t'.pc = t.pc ∧ t'.fl = t.fl ∧ t'.status = t.status ∧ t'.out = t.out

/-! ## The collaborators' contracts -/

/-- R53: every line may have white space before and after its 1 to 8 binary digits and a comment after them; a line
with no digits is skipped, and the others give their bytes in order. What ends a line and what counts as white
space are the model's choices (log 16); 1 to 8 digits is the spec's decision D18. -/
def Obligations.ListingLoadsItsBytes : Prop :=
  ∀ lines : List ListingLine, (∀ line ∈ lines, line.Accepted) →
    loadImage (some (joinLines (lines.map ListingLine.text))) = .ok (lines.filterMap ListingLine.byte?)

/-- R90, R106: an unreadable file is a `LoadError`, and after any `LoadError` no core is built; without one the core
is the constructed one. -/
def Obligations.LoadErrorBuildsNoCore : Prop :=
  bootListing none = .error .loadError ∧
  ∀ file, (∀ e, loadImage file = .error e → bootListing file = .error e) ∧
    ∀ image, loadImage file = .ok image → bootListing file = .ok (construct image)

/-- R98, R100: `Inspect()` shows all eight registers, all 256 bytes of memory, `pc`, status and output, and FL with E
at bit 0, G at bit 1 and L at bit 2 (R18; the spec's decision D9, log 18); a trace shows `pc`, the eight
registers and three bytes, each that of memory wherever it has one (beyond 255 the byte is free, log 17). -/
def Obligations.InspectAndTraceShowState : Prop :=
  ∀ s : State,
    (∀ (r : Nat) (h : r < 8), (inspect s).regs[r]? = some s.regs[r]) ∧ (inspect s).regs.length = 8 ∧
    (∀ p, p < 256 → (inspect s).mem[p]? = some (s.mem.read p)) ∧ (inspect s).mem.length = 256 ∧
    (inspect s).pc = s.pc ∧
    (inspect s).fl.getLsbD 0 = s.fl.e ∧ (inspect s).fl.getLsbD 1 = s.fl.g ∧ (inspect s).fl.getLsbD 2 = s.fl.l ∧
    (inspect s).status = s.status ∧ (inspect s).out = s.out ∧
    (traceSnapshot s).pc = s.pc ∧ (traceSnapshot s).regs = (inspect s).regs ∧
    (traceSnapshot s).bytes.length = 3 ∧
    ∀ k, k < 3 → s.pc + k < 256 → (traceSnapshot s).bytes[k]? = some (s.mem.read (s.pc + k))

/-- R53, R90: one line whose token is not 1 to 8 binary digits makes the whole listing a `LoadError`, whatever the
other lines are, and no core is built. What ends a line and what counts as white space are the model's choices
(log 16); 1 to 8 digits is the spec's decision D18. -/
def Obligations.BadTokenIsLoadError : Prop :=
  ∀ (lines : List (List Char)) (before token after : List Char) (comment : Option (List Char)),
    (∀ line ∈ lines, '\n' ∉ line) → BlanksOnly before → BadToken token → BlanksOnly after →
    before ++ token ++ after ++ commentText comment ∈ lines →
    loadImage (some (joinLines lines)) = .error .loadError ∧
    bootListing (some (joinLines lines)) = .error .loadError
end

