-- ==== Sys2Proof/Laws/Decode.lean ====
section
/-! SUPPORT. What decoding can answer. -/

namespace Sys2Proof

/-- The search for a bad register operand finds none exactly for a well-formed instruction. -/
theorem checkedOperands_find_none (i : Instr) :
    (checkedOperands i).find? (fun v => !regInRange v) = none ↔ i.wellFormed = true := by
  simp [checkedOperands, Instr.wellFormed, List.find?_eq_none]

/-- Decoding succeeds exactly when the opcode is defined and the instruction well-formed. -/
theorem decode_ok_iff (w : Fetched) (i : Instr) :
    decode w = .ok i ↔ lookupOpcode w = some i ∧ i.wellFormed = true := by
  unfold decode
  cases hl : lookupOpcode w with
  | none => simp
  | some j =>
    cases hf : (checkedOperands j).find? (fun v => !regInRange v) with
    | none =>
      have hw := (checkedOperands_find_none j).1 hf
      constructor
      · intro h
        simp only [hf] at h
        cases h
        exact ⟨rfl, hw⟩
      · rintro ⟨h, -⟩
        cases h
        simp only [hf]
    | some v =>
      constructor
      · intro h
        simp [hf] at h
      · rintro ⟨h, hw⟩
        cases h
        rw [(checkedOperands_find_none _).2 hw] at hf
        cases hf

/-- A decoding rejection names either an undefined opcode or the first bad register operand. -/
theorem decode_error_cases {w : Fetched} {r : DecodeReject} (h : decode w = .error r) :
    (lookupOpcode w = none ∧ r = .undefinedOpcode w.opcode) ∨
      ∃ i v, lookupOpcode w = some i ∧ v ∈ i.regOperands ∧ 8 ≤ v.toNat ∧ r = .registerOutOfRange v := by
  unfold decode at h
  cases hl : lookupOpcode w with
  | none =>
    simp only [hl] at h
    cases h
    exact .inl ⟨rfl, rfl⟩
  | some i =>
    simp only [hl] at h
    cases hf : (checkedOperands i).find? (fun v => !regInRange v) with
    | none => simp [hf] at h
    | some v =>
      simp only [hf] at h
      cases h
      have hp := List.find?_some hf
      exact .inr ⟨i, v, rfl, List.mem_of_find?_eq_some hf, by simpa [regInRange] using hp, rfl⟩

open Machine in
/-- The whole opcode map: each of the 13 bytes selects its row, and every other byte none (R45, R46). -/
theorem lookup_table (w : Fetched) :
    (w.opcode = 0x01 ∧ lookupOpcode w = some .hlt) ∨
    (w.opcode = 0x82 ∧ lookupOpcode w = some (.ldi w.operandA w.operandB)) ∨
    (w.opcode = 0x47 ∧ lookupOpcode w = some (.prn w.operandA)) ∨
    (w.opcode = 0xA0 ∧ lookupOpcode w = some (.add w.operandA w.operandB)) ∨
    (w.opcode = 0xA2 ∧ lookupOpcode w = some (.mul w.operandA w.operandB)) ∨
    (w.opcode = 0xA7 ∧ lookupOpcode w = some (.cmp w.operandA w.operandB)) ∨
    (w.opcode = 0x45 ∧ lookupOpcode w = some (.push w.operandA)) ∨
    (w.opcode = 0x46 ∧ lookupOpcode w = some (.pop w.operandA)) ∨
    (w.opcode = 0x50 ∧ lookupOpcode w = some (.call w.operandA)) ∨
    (w.opcode = 0x11 ∧ lookupOpcode w = some .ret) ∨
    (w.opcode = 0x54 ∧ lookupOpcode w = some (.jmp w.operandA)) ∨
    (w.opcode = 0x55 ∧ lookupOpcode w = some (.jeq w.operandA)) ∨
    (w.opcode = 0x56 ∧ lookupOpcode w = some (.jne w.operandA)) ∨
    (w.opcode ∉ definedOpcodes ∧ lookupOpcode w = none) := by
  obtain ⟨op, a, b⟩ := w
  by_cases h : op ∈ definedOpcodes
  · simp only [definedOpcodes, List.mem_cons, List.not_mem_nil, or_false] at h
    rcases h with rfl | rfl | rfl | rfl | rfl | rfl | rfl | rfl | rfl | rfl | rfl | rfl | rfl <;> simp [lookupOpcode]
  · have hn : lookupOpcode ⟨op, a, b⟩ = none := by
      unfold lookupOpcode
      simp only [definedOpcodes, List.mem_cons, List.not_mem_nil, or_false, not_or, ← BitVec.toNat_inj] at h
      split <;> simp_all
    simp [h, hn]

end Sys2Proof
end

