-- ==== Sys2Proof/Laws/Loader.lean ====
section
/-! SUPPORT. What the loader makes of a line and of a listing. -/

namespace Sys2Proof.Machine

/-- A line feed ends the first line. -/
theorem listingLines_cons {line : List Char} (h : '\n' ∉ line) (rest : List Char) :
    listingLines (line ++ '\n' :: rest) = line :: listingLines rest := by
  induction line with
  | nil => simp [listingLines]
  | cons c cs ih =>
    simp only [List.mem_cons, not_or] at h
    simp only [List.cons_append, listingLines, ih h.2]
    simp [Ne.symm h.1]

/-- Text without a line feed is one line. -/
theorem listingLines_single {line : List Char} (h : '\n' ∉ line) : listingLines line = [line] := by
  induction line with
  | nil => rfl
  | cons c cs ih =>
    simp only [List.mem_cons, not_or] at h
    simp only [listingLines, ih h.2]
    simp [Ne.symm h.1]

/-- Cutting undoes joining, the empty listing being one empty line. -/
theorem listingLines_joinLines {lines : List (List Char)} (h : ∀ line ∈ lines, '\n' ∉ line) :
    listingLines (joinLines lines) = if lines = [] then [[]] else lines := by
  induction lines with
  | nil => rfl
  | cons line rest ih =>
    have hl := h line (by simp)
    cases rest with
    | nil => simpa [joinLines] using listingLines_single hl
    | cons next more =>
      rw [joinLines, listingLines_cons hl, ih (fun l hm => h l (List.mem_cons_of_mem _ hm))]
      simp

/-- Stripping removes the comment and nothing else. -/
theorem stripComment_comment {body : List Char} (h : '#' ∉ body) (comment : Option (List Char)) :
    stripComment (body ++ commentText comment) = body := by
  unfold stripComment
  rw [List.takeWhile_append_of_pos]
  · cases comment <;> simp [commentText]
  · intro c hc
    simp only [bne_iff_ne, ne_eq]
    rintro rfl
    exact h hc

/-- White space in front of a token that does not begin with any is dropped. -/
theorem dropWhile_blank_append {blanks token : List Char} (hb : BlanksOnly blanks)
    (ht : ∀ c, token.head? = some c → isBlank c = false) : (blanks ++ token).dropWhile isBlank = token := by
  rw [List.dropWhile_append_of_pos (fun c hc => (hb c hc).1)]
  cases token with
  | nil => rfl
  | cons c cs => simp [ht c rfl]

/-- Trimming leaves the token between white space, and nothing of a line without one. -/
theorem trimBlanks_token {before token after : List Char} (hb : BlanksOnly before) (ha : BlanksOnly after)
    (hf : ∀ c, token.head? = some c → isBlank c = false)
    (hl : ∀ c, token.getLast? = some c → isBlank c = false) : trimBlanks (before ++ token ++ after) = token := by
  have har : BlanksOnly after.reverse := fun c hc => ha c (List.mem_reverse.1 hc)
  have htr : ∀ c, token.reverse.head? = some c → isBlank c = false := by
    simpa [List.head?_reverse] using hl
  unfold trimBlanks
  rw [List.append_assoc]
  cases token with
  | nil =>
    have h0 : (before ++ ([] ++ after)).dropWhile isBlank = [] :=
      List.dropWhile_eq_nil_iff.2 fun c hc => by
        rcases List.mem_append.1 hc with h | h
        · exact (hb c h).1
        · exact (ha c h).1
    rw [h0]
    rfl
  | cons t ts =>
    rw [dropWhile_blank_append hb (fun c hc => hf c (by simpa using hc)), List.reverse_append,
      dropWhile_blank_append har htr, List.reverse_reverse]

/-- What one line does to the loading of the lines after it. -/
theorem parseLines_cons (line : List Char) (rest : List (List Char)) :
    parseLines (line :: rest) =
      (if trimBlanks (stripComment line) = [] then parseLines rest
       else match parseToken (trimBlanks (stripComment line)) with
        | none => .error .loadError
        | some b => (parseLines rest).map (b :: ·)) := by
  rw [parseLines]
  cases hs : trimBlanks (stripComment line) with
  | nil => rfl
  | cons c cs =>
    simp only [List.cons_ne_nil, if_false]
    cases parseToken (c :: cs) with
    | none => rfl
    | some b => cases parseLines rest <;> rfl

/-- Loading either succeeds or is a `LoadError`. -/
theorem parseLines_error {lines : List (List Char)} {e : ErrorClass} (h : parseLines lines = .error e) :
    e = .loadError := by
  induction lines with
  | nil => cases h
  | cons line rest ih =>
    rw [parseLines_cons] at h
    split at h
    · exact ih h
    · split at h
      · exact (Except.error.inj h).symm
      · cases hr : parseLines rest with
        | ok bytes =>
          rw [hr] at h
          cases h
        | error e' =>
          rw [hr] at h
          exact ih (hr.trans h)

end Sys2Proof.Machine
end

