-- ==== Sys2Proof/Laws/Memory.lean ====
section
/-! SUPPORT. The laws of memory: read after write, the canonical form, and its uniqueness. -/

namespace Sys2Proof.Machine

@[simp] theorem Memory.read_nil (a : Nat) : Memory.read [] a = 0 := rfl

theorem Memory.read_cons (k : Nat) (w : Byte) (rest : Memory) (a : Nat) :
    Memory.read ((k, w) :: rest) a = if k = a then w else Memory.read rest a := rfl

/-- A write leaves every other address alone, in canonical form or not. -/
theorem Memory.read_write_ne (m : Memory) {a b : Nat} (v : Byte) (h : b ≠ a) :
    (m.write a v).read b = m.read b := by
  induction m with
  | nil =>
    rw [Memory.write]
    split
    · rfl
    · rw [Memory.read_cons, if_neg (Ne.symm h)]
  | cons c rest ih =>
    obtain ⟨k, w⟩ := c
    rw [Memory.write]
    split
    · split
      · rfl
      · simp [Memory.read, Ne.symm h]
    · split
      · rename_i hak
        subst hak
        split <;> simp [Memory.read, Ne.symm h]
      · simp only [Memory.read_cons, ih]

theorem memoryWfFrom_cons {lo k : Nat} {w : Byte} {rest : Memory} :
    memoryWfFrom lo ((k, w) :: rest) = true ↔
      lo ≤ k ∧ k < 256 ∧ w ≠ 0 ∧ memoryWfFrom (k + 1) rest = true := by
  simp only [memoryWfFrom, Bool.and_eq_true, decide_eq_true_eq, bne_iff_ne, and_assoc]
  exact Iff.rfl

/-- The canonical form from a higher address is one from a lower address. -/
theorem memoryWfFrom_mono {lo hi : Nat} {m : Memory} (h : memoryWfFrom hi m = true) (hle : lo ≤ hi) :
    memoryWfFrom lo m = true := by
  cases m with
  | nil => rfl
  | cons c rest =>
    obtain ⟨k, w⟩ := c
    rw [memoryWfFrom_cons] at h ⊢
    exact ⟨by omega, h.2⟩

/-- Below its first address a canonical memory lists nothing. -/
theorem Memory.read_below {lo a : Nat} {m : Memory} (h : memoryWfFrom lo m = true) (ha : a < lo) :
    m.read a = 0 := by
  induction m generalizing lo with
  | nil => rfl
  | cons c rest ih =>
    obtain ⟨k, w⟩ := c
    rw [memoryWfFrom_cons] at h
    rw [Memory.read_cons, if_neg (by omega)]
    exact ih h.2.2.2 (by omega)

/-- A canonical memory lists no address from 256 on. -/
theorem Memory.read_above {lo a : Nat} {m : Memory} (h : memoryWfFrom lo m = true) (ha : 256 ≤ a) :
    m.read a = 0 := by
  induction m generalizing lo with
  | nil => rfl
  | cons c rest ih =>
    obtain ⟨k, w⟩ := c
    rw [memoryWfFrom_cons] at h
    rw [Memory.read_cons, if_neg (by omega)]
    exact ih h.2.2.2

theorem Memory.read_write_same_from {lo : Nat} {m : Memory} (h : memoryWfFrom lo m = true) (a : Nat) (v : Byte) :
    (m.write a v).read a = v := by
  induction m generalizing lo with
  | nil =>
    rw [Memory.write]
    split
    · rename_i hv
      rw [hv, Memory.read_nil]
    · rw [Memory.read_cons, if_pos rfl]
  | cons c rest ih =>
    obtain ⟨k, w⟩ := c
    have hc := memoryWfFrom_cons.1 h
    rw [Memory.write]
    split
    · rename_i hak
      split
      · rename_i hv
        rw [hv, Memory.read_cons, if_neg (by omega)]
        exact Memory.read_below hc.2.2.2 (by omega)
      · simp [Memory.read]
    · split
      · rename_i hak
        subst hak
        split
        · rename_i hv
          rw [hv]
          exact Memory.read_below hc.2.2.2 (by omega)
        · simp [Memory.read]
      · rename_i hne
        rw [Memory.read_cons, if_neg (Ne.symm hne)]
        exact ih hc.2.2.2

/-- A read after a write to the same address gives the value written. -/
theorem Memory.read_write_same {m : Memory} (h : m.wf = true) (a : Nat) (v : Byte) :
    (m.write a v).read a = v := Memory.read_write_same_from h a v

theorem memoryWfFrom_write {lo : Nat} {m : Memory} (h : memoryWfFrom lo m = true) {a : Nat} (v : Byte)
    (hlo : lo ≤ a) (ha : a < 256) : memoryWfFrom lo (m.write a v) = true := by
  induction m generalizing lo with
  | nil =>
    by_cases hv : v = 0
    · rw [Memory.write, if_pos hv]
      rfl
    · rw [Memory.write, if_neg hv, memoryWfFrom_cons]
      exact ⟨hlo, ha, hv, rfl⟩
  | cons c rest ih =>
    obtain ⟨k, w⟩ := c
    have hc := memoryWfFrom_cons.1 h
    rw [Memory.write]
    split
    · split
      · exact h
      · rename_i hv
        rw [memoryWfFrom_cons]
        refine ⟨hlo, ha, hv, ?_⟩
        rw [memoryWfFrom_cons]
        exact ⟨by omega, hc.2⟩
    · split
      · rename_i hak
        subst hak
        split
        · exact memoryWfFrom_mono hc.2.2.2 (by omega)
        · rename_i hv
          rw [memoryWfFrom_cons]
          exact ⟨hlo, ha, hv, hc.2.2.2⟩
      · rw [memoryWfFrom_cons]
        exact ⟨hc.1, hc.2.1, hc.2.2.1, ih hc.2.2.2 (by omega)⟩

/-- A write inside the address space keeps the canonical form. -/
theorem Memory.write_wf {m : Memory} (h : m.wf = true) {a : Nat} (v : Byte) (ha : a < 256) :
    (m.write a v).wf = true := memoryWfFrom_write h v (Nat.zero_le a) ha

theorem memory_ext_from {lo : Nat} {m n : Memory} (hm : memoryWfFrom lo m = true)
    (hn : memoryWfFrom lo n = true) (h : ∀ a, m.read a = n.read a) : m = n := by
  induction m generalizing lo n with
  | nil =>
    cases n with
    | nil => rfl
    | cons c rest =>
      obtain ⟨k, w⟩ := c
      have hk := h k
      rw [Memory.read_nil, Memory.read_cons, if_pos rfl] at hk
      exact absurd hk.symm (memoryWfFrom_cons.1 hn).2.2.1
  | cons c rest ih =>
    obtain ⟨k, w⟩ := c
    have hc := memoryWfFrom_cons.1 hm
    cases n with
    | nil =>
      have hk := h k
      rw [Memory.read_nil, Memory.read_cons, if_pos rfl] at hk
      exact absurd hk hc.2.2.1
    | cons d rest' =>
      obtain ⟨k', w'⟩ := d
      have hd := memoryWfFrom_cons.1 hn
      have hkk : k = k' := by
        rcases Nat.lt_trichotomy k k' with hlt | heq | hgt
        · have hk := h k
          rw [Memory.read_cons, if_pos rfl, Memory.read_cons, if_neg (by omega),
            Memory.read_below hd.2.2.2 (by omega)] at hk
          exact absurd hk hc.2.2.1
        · exact heq
        · have hk := h k'
          rw [Memory.read_cons, if_neg (by omega), Memory.read_below hc.2.2.2 (by omega),
            Memory.read_cons, if_pos rfl] at hk
          exact absurd hk.symm hd.2.2.1
      subst hkk
      have hw : w = w' := by
        have hk := h k
        rwa [Memory.read_cons, if_pos rfl, Memory.read_cons, if_pos rfl] at hk
      subst hw
      have hrest : rest = rest' := by
        refine ih hc.2.2.2 hd.2.2.2 (fun a => ?_)
        by_cases hka : k = a
        · subst hka
          rw [Memory.read_below hc.2.2.2 (by omega), Memory.read_below hd.2.2.2 (by omega)]
        · have hk := h a
          rwa [Memory.read_cons, if_neg hka, Memory.read_cons, if_neg hka] at hk
      rw [hrest]

/-- Canonical memories that read the same everywhere are the same data. -/
theorem memory_ext {m n : Memory} (hm : m.wf = true) (hn : n.wf = true)
    (h : ∀ a, m.read a = n.read a) : m = n := memory_ext_from hm hn h

/-- Reset memory is canonical. -/
theorem reset_mem_wf : State.reset.mem.wf = true := rfl

/-- Placing a byte from outside keeps the canonical form. -/
theorem placeByte_wf {s : State} (h : s.mem.wf = true) (a : Nat) (v : Byte) :
    (s.placeByte a v).mem.wf = true := by
  unfold State.placeByte
  split
  · exact h
  · rename_i hle
    exact Memory.write_wf h v (by simpa [Config.memSize] using hle)

/-- A store keeps the canonical form. -/
theorem memWrite_wf {s t : State} {a : Nat} {v : Byte} (h : s.mem.wf = true)
    (hw : memWrite a v s = .ok t) : t.mem.wf = true := by
  unfold memWrite at hw
  split at hw
  · cases hw
  · rename_i hle
    cases hw
    exact Memory.write_wf h v (by simpa [Config.memSize] using hle)

end Sys2Proof.Machine
end

