-- ==== Sys2Proof/Laws/Ops.lean ====
section
/-! SUPPORT. One lemma per shared operation: everything it can do. -/

namespace Sys2Proof.Machine

theorem regIndex_inRange {v : Byte} (h : v.toNat < 8) : regIndex v = .ok ⟨v.toNat, h⟩ := dif_pos h

theorem regIndex_outOfRange {v : Byte} (h : 8 ≤ v.toNat) : regIndex v = .error (.registerBounds v) :=
  dif_neg (by omega)

theorem memRead_inRange {a : Nat} (h : a < 256) (s : State) : memRead a s = .ok (s.mem.read a) :=
  if_neg (Nat.not_le.2 h)

theorem memRead_outOfRange {a : Nat} (h : 256 ≤ a) (s : State) : memRead a s = .error (.memoryBounds a) :=
  if_pos h

theorem memWrite_inRange {a : Nat} (h : a < 256) (v : Byte) (s : State) :
    memWrite a v s = .ok (s.setMem (s.mem.write a v)) := if_neg (Nat.not_le.2 h)

theorem memWrite_outOfRange {a : Nat} (h : 256 ≤ a) (v : Byte) (s : State) :
    memWrite a v s = .error (.memoryBounds a) := if_pos h

/-- A stack read is always in range (R29). -/
@[simp] theorem memRead_byte (p : Byte) (s : State) : memRead p.toNat s = .ok (s.mem.read p.toNat) :=
  memRead_inRange p.isLt s

/-- A stack write is always in range (R29). -/
@[simp] theorem memWrite_byte (p v : Byte) (s : State) :
    memWrite p.toNat v s = .ok (s.setMem (s.mem.write p.toNat v)) := memWrite_inRange p.isLt v s

@[simp] theorem commit_ok (s t : State) : commit s (.ok t) = .next t := rfl

@[simp] theorem commit_error (s : State) (e : CoreError) : commit s (.error e) = .next (takeError e s) := rfl

/-- All a commit can do. -/
theorem commit_cases {s t : State} {r : Except CoreError State} (h : commit s r = .next t) :
    r = .ok t ∨ ∃ e, r = .error e ∧ t = takeError e s := by
  cases r with
  | ok u => exact .inl (by rw [commit_ok] at h; injection h with h; rw [h])
  | error e => exact .inr ⟨e, rfl, by rw [commit_error] at h; injection h with h; exact h.symm⟩

/-- A commit always gives a next state. -/
theorem commit_isNext (s : State) (r : Except CoreError State) : ∃ t, commit s r = .next t := by
  cases r with
  | ok u => exact ⟨u, rfl⟩
  | error e => exact ⟨_, rfl⟩

/-- A handler whose operand is in range goes on with its register. -/
theorem commit_regIndex_inRange {v : Byte} (h : v.toNat < 8) (s : State)
    (body : Fin 8 → Except CoreError State) :
    commit s (regIndex v >>= body) = commit s (body ⟨v.toNat, h⟩) := by
  rw [regIndex_inRange h]
  rfl

/-- A handler whose operand is out of range raises `RegisterBoundsError` and does nothing else. -/
theorem commit_regIndex_outOfRange {v : Byte} (h : 8 ≤ v.toNat) (s : State)
    (body : Fin 8 → Except CoreError State) :
    commit s (regIndex v >>= body) = .next (takeError (.registerBounds v) s) := by
  rw [regIndex_outOfRange h]
  rfl

/-- An ALU instruction with both operands in range. -/
theorem applyAlu_inRange {a b : Byte} (ha : a.toNat < 8) (hb : b.toNat < 8) (op : AluOp) (s : State) :
    applyAlu op a b s =
      commit s ((alu op (s.reg ⟨a.toNat, ha⟩) (s.reg ⟨b.toNat, hb⟩)).map
        (fun r => (writeAluResult s ⟨a.toNat, ha⟩ r).advance 3)) := by
  unfold applyAlu
  rw [commit_regIndex_inRange ha, commit_regIndex_inRange hb]
  cases alu op (s.reg ⟨a.toNat, ha⟩) (s.reg ⟨b.toNat, hb⟩) <;> rfl

theorem applyAlu_badA {a : Byte} (ha : 8 ≤ a.toNat) (op : AluOp) (b : Byte) (s : State) :
    applyAlu op a b s = .next (takeError (.registerBounds a) s) := commit_regIndex_outOfRange ha s _

theorem applyAlu_badB {a b : Byte} (ha : a.toNat < 8) (hb : 8 ≤ b.toNat) (op : AluOp) (s : State) :
    applyAlu op a b s = .next (takeError (.registerBounds b) s) := by
  unfold applyAlu
  rw [commit_regIndex_inRange ha, commit_regIndex_outOfRange hb]

/-- A jump with its operand in range. -/
theorem jumpWhen_inRange {a : Byte} (ha : a.toNat < 8) (taken : Bool) (s : State) :
    jumpWhen taken a s =
      .next (if taken then s.setPc (s.reg ⟨a.toNat, ha⟩).toNat else s.advance 2) := by
  unfold jumpWhen
  rw [commit_regIndex_inRange ha]
  rfl

theorem jumpWhen_outOfRange {a : Byte} (ha : 8 ≤ a.toNat) (taken : Bool) (s : State) :
    jumpWhen taken a s = .next (takeError (.registerBounds a) s) := commit_regIndex_outOfRange ha s _

/-- The three flags of a comparison, each by its own condition (R72). -/
theorem compareFlags_eq (p q : Byte) :
    compareFlags p q =
      { e := decide (p.toNat = q.toNat), g := decide (q.toNat < p.toNat), l := decide (p.toNat < q.toNat) } := by
  unfold compareFlags
  rcases Nat.lt_trichotomy p.toNat q.toNat with h | h | h
  · rw [if_neg (by omega), if_neg (by omega)]
    simp [h, show ¬ p.toNat = q.toNat by omega, show ¬ q.toNat < p.toNat by omega]
  · simp [h]
  · rw [if_neg (by omega), if_pos h]
    simp [h, show ¬ p.toNat = q.toNat by omega, show ¬ p.toNat < q.toNat by omega]

end Sys2Proof.Machine
end

