-- ==== Sys2Proof/Laws/PerInstr.lean ====
section
/-! SUPPORT. The per-instruction families of LAWS.json. -/

namespace Sys2Proof.Laws

/-- R43: the encoded length is the operand count in bits 7:6 of the first byte, plus one. -/
def EncodeLength.Statement (i : Instr) : Prop :=
  ∃ op rest, encode i = op :: rest ∧ (encode i).length = instrLength op

/-- Three bytes are the length of an opcode whose operand count is 2. -/
theorem length3 {op a b : Byte} (h : operandCount op = 2) : [op, a, b].length = instrLength op := by
  rw [instrLength, h]
  rfl

theorem EncodeLength.hlt : EncodeLength.Statement .hlt := ⟨_, _, rfl, rfl⟩
theorem EncodeLength.ldi (a v : Byte) : EncodeLength.Statement (.ldi a v) := ⟨_, _, rfl, length3 (by decide)⟩
theorem EncodeLength.prn (a : Byte) : EncodeLength.Statement (.prn a) := ⟨_, _, rfl, rfl⟩
theorem EncodeLength.add (a b : Byte) : EncodeLength.Statement (.add a b) := ⟨_, _, rfl, length3 (by decide)⟩
theorem EncodeLength.mul (a b : Byte) : EncodeLength.Statement (.mul a b) := ⟨_, _, rfl, length3 (by decide)⟩
theorem EncodeLength.cmp (a b : Byte) : EncodeLength.Statement (.cmp a b) := ⟨_, _, rfl, length3 (by decide)⟩
theorem EncodeLength.push (a : Byte) : EncodeLength.Statement (.push a) := ⟨_, _, rfl, rfl⟩
theorem EncodeLength.pop (a : Byte) : EncodeLength.Statement (.pop a) := ⟨_, _, rfl, rfl⟩
theorem EncodeLength.call (a : Byte) : EncodeLength.Statement (.call a) := ⟨_, _, rfl, rfl⟩
theorem EncodeLength.ret : EncodeLength.Statement .ret := ⟨_, _, rfl, rfl⟩
theorem EncodeLength.jmp (a : Byte) : EncodeLength.Statement (.jmp a) := ⟨_, _, rfl, rfl⟩
theorem EncodeLength.jeq (a : Byte) : EncodeLength.Statement (.jeq a) := ⟨_, _, rfl, rfl⟩
theorem EncodeLength.jne (a : Byte) : EncodeLength.Statement (.jne a) := ⟨_, _, rfl, rfl⟩

/-- R42, R47: the register operands of an instruction are its operand bytes, in order, from the first
on; only LDI has a byte more, its immediate. -/
def EncodeRegOperands.Statement (i : Instr) : Prop :=
  i.regOperands <+: (encode i).tail ∧
    ((encode i).tail = i.regOperands ∨ ∃ a v, i = .ldi a v ∧ (encode i).tail = [a, v])

theorem EncodeRegOperands.hlt : EncodeRegOperands.Statement .hlt := ⟨List.prefix_rfl, .inl rfl⟩
theorem EncodeRegOperands.ldi (a v : Byte) : EncodeRegOperands.Statement (.ldi a v) :=
  ⟨⟨[v], rfl⟩, .inr ⟨a, v, rfl, rfl⟩⟩
theorem EncodeRegOperands.prn (a : Byte) : EncodeRegOperands.Statement (.prn a) := ⟨List.prefix_rfl, .inl rfl⟩
theorem EncodeRegOperands.add (a b : Byte) : EncodeRegOperands.Statement (.add a b) := ⟨List.prefix_rfl, .inl rfl⟩
theorem EncodeRegOperands.mul (a b : Byte) : EncodeRegOperands.Statement (.mul a b) := ⟨List.prefix_rfl, .inl rfl⟩
theorem EncodeRegOperands.cmp (a b : Byte) : EncodeRegOperands.Statement (.cmp a b) := ⟨List.prefix_rfl, .inl rfl⟩
theorem EncodeRegOperands.push (a : Byte) : EncodeRegOperands.Statement (.push a) := ⟨List.prefix_rfl, .inl rfl⟩
theorem EncodeRegOperands.pop (a : Byte) : EncodeRegOperands.Statement (.pop a) := ⟨List.prefix_rfl, .inl rfl⟩
theorem EncodeRegOperands.call (a : Byte) : EncodeRegOperands.Statement (.call a) := ⟨List.prefix_rfl, .inl rfl⟩
theorem EncodeRegOperands.ret : EncodeRegOperands.Statement .ret := ⟨List.prefix_rfl, .inl rfl⟩
theorem EncodeRegOperands.jmp (a : Byte) : EncodeRegOperands.Statement (.jmp a) := ⟨List.prefix_rfl, .inl rfl⟩
theorem EncodeRegOperands.jeq (a : Byte) : EncodeRegOperands.Statement (.jeq a) := ⟨List.prefix_rfl, .inl rfl⟩
theorem EncodeRegOperands.jne (a : Byte) : EncodeRegOperands.Statement (.jne a) := ⟨List.prefix_rfl, .inl rfl⟩

end Sys2Proof.Laws
end

