-- ==== Sys2Proof/Laws/Step.lean ====
section
/-! SUPPORT. What a fetch, a decode and a step can do. -/

namespace Sys2Proof.Machine

/-- The three bytes at `pc`. -/
def bytesAtPc (s : State) : Fetched where
  opcode := s.mem.read s.pc
  operandA := s.mem.read (s.pc + 1)
  operandB := s.mem.read (s.pc + 2)

theorem fetch_inRange {s : State} (h : s.pc ≤ 253) : fetch s = .ok (bytesAtPc s) := by
  unfold fetch
  rw [memRead_inRange (by omega), memRead_inRange (by omega), memRead_inRange (by omega)]
  rfl

/-- From 254 on the fetch raises `MemoryBoundsError`, of 256 or of `pc` itself if that lies higher. -/
theorem fetch_outOfRange {s : State} (h : 254 ≤ s.pc) :
    fetch s = .error (.memoryBounds (max 256 s.pc)) := by
  unfold fetch
  by_cases h0 : 256 ≤ s.pc
  · rw [memRead_outOfRange h0, Nat.max_eq_right h0]
    rfl
  · rw [memRead_inRange (by omega), Nat.max_eq_left (by omega)]
    by_cases h1 : s.pc = 255
    · rw [memRead_outOfRange (by omega), h1]
      rfl
    · rw [memRead_inRange (by omega), memRead_outOfRange (by omega), show s.pc + 2 = 256 by omega]
      rfl

theorem fetchDecode_inRange {s : State} (h : s.pc ≤ 253) :
    fetchDecode s = (decode (bytesAtPc s)).mapError rejectError := by
  unfold fetchDecode
  rw [fetch_inRange h]
  change (match decode (bytesAtPc s) with | .ok i => pure i | .error r => throw (rejectError r)) = _
  cases decode (bytesAtPc s) <;> rfl

theorem fetchDecode_outOfRange {s : State} (h : 254 ≤ s.pc) :
    fetchDecode s = .error (.memoryBounds (max 256 s.pc)) := by
  unfold fetchDecode
  rw [fetch_outOfRange h]
  rfl

/-- An instruction fetched and decoded lies at 253 or below and is well-formed. -/
theorem fetchDecode_ok {s : State} {i : Instr} (h : fetchDecode s = .ok i) :
    s.pc ≤ 253 ∧ lookupOpcode (bytesAtPc s) = some i ∧ i.wellFormed = true := by
  by_cases hp : s.pc ≤ 253
  · rw [fetchDecode_inRange hp] at h
    refine ⟨hp, (decode_ok_iff _ _).1 ?_⟩
    cases hd : decode (bytesAtPc s) with
    | ok j =>
      rw [hd] at h
      exact congrArg Except.ok (Except.ok.inj h)
    | error r =>
      rw [hd] at h
      cases h
  · rw [fetchDecode_outOfRange (by omega)] at h
    cases h

/-- Every error of fetch and decode, in the order R93 gives. -/
theorem fetchDecode_error {s : State} {e : CoreError} (h : fetchDecode s = .error e) :
    (254 ≤ s.pc ∧ e = .memoryBounds (max 256 s.pc)) ∨
    (s.pc ≤ 253 ∧ lookupOpcode (bytesAtPc s) = none ∧ e = .decode (s.mem.read s.pc)) ∨
    (s.pc ≤ 253 ∧ ∃ i v, lookupOpcode (bytesAtPc s) = some i ∧ v ∈ i.regOperands ∧ 8 ≤ v.toNat ∧
      e = .registerBounds v) := by
  by_cases hp : s.pc ≤ 253
  · rw [fetchDecode_inRange hp] at h
    cases hd : decode (bytesAtPc s) with
    | ok j =>
      rw [hd] at h
      cases h
    | error r =>
      rw [hd] at h
      have he : e = rejectError r := (Except.error.inj h).symm
      rcases decode_error_cases hd with ⟨hl, hr⟩ | ⟨i, v, hl, hv, h8, hr⟩
      · exact .inr (.inl ⟨hp, hl, by rw [he, hr]; rfl⟩)
      · exact .inr (.inr ⟨hp, i, v, hl, hv, h8, by rw [he, hr]; rfl⟩)
  · rw [fetchDecode_outOfRange (by omega)] at h
    exact .inl ⟨by omega, (Except.error.inj h).symm⟩

theorem whenFinal_none {s : State} : whenFinal s = none ↔ s.status = .running := by
  unfold whenFinal
  cases s.status <;> simp

/-- A step of a running state is its cycle. -/
theorem step_running {s : State} (h : s.status = .running) :
    step s = (match fetchDecode s with
      | .error e => .next (takeError e s)
      | .ok i => exec i s) := by
  have hw := whenFinal_none.2 h
  unfold step
  revert hw
  generalize whenFinal s = o
  rintro rfl
  rfl

/-- All a step to a next state can have done. -/
theorem step_cases {s t : State} (h : step s = .next t) :
    s.status = .running ∧
      ((∃ e, fetchDecode s = .error e ∧ t = takeError e s) ∨
        ∃ i, fetchDecode s = .ok i ∧ exec i s = .next t) := by
  have hr : s.status = .running := by
    rw [← whenFinal_none]
    unfold step at h
    cases hs : s.status <;> simp [whenFinal, hs] at h ⊢
  refine ⟨hr, ?_⟩
  rw [step_running hr] at h
  cases hf : fetchDecode s with
  | error e =>
    rw [hf] at h
    exact .inl ⟨e, rfl, (Host.Outcome.next.inj h).symm⟩
  | ok i =>
    rw [hf] at h
    exact .inr ⟨i, rfl, h⟩

end Sys2Proof.Machine
end

