-- ==== Sys2Proof/Tests/Slice0.lean ====
section
/-! SUPPORT. The model's own tests: ill-formed terms refused, words written out from the encodings of R46,
one step per test with the expected result from 95_test_vectors.md (its number in the docstring), and a
witness for the hypotheses of each statement. -/

namespace Sys2Proof.Tests

open Machine

/-- The reset state with bytes loaded at an address and some registers set. -/
def machine (address : Nat) (bytes : List Byte) (regs : List (Fin 8 × Byte)) : State :=
  regs.foldl (fun s r => s.setReg r.1 r.2) ((loadFrom address bytes State.reset).setPc address)

/-- A step to a next state of which a check holds. -/
def stepsTo (s : State) (check : State → Bool) : Bool :=
  match step s with
  | .next t => check t
  | .fault _ => false
  | .refused _ => false

/-- A step to a next state faulted with this class and value, all else as it was. -/
def faultsWith (s : State) (cls : ErrorClass) (value : Nat) : Bool :=
  stepsTo s (fun t => t.status == .faulted { cls := cls, value := value, pc := s.pc } &&
    t.regs.toList == s.regs.toList && t.pc == s.pc && t.fl == s.fl && t.mem == s.mem && t.out == s.out)

/-! ## WellFormed: an ill-formed term for each checked operand -/

theorem test_wf_ldi_refused : (Instr.ldi 8 0).wellFormed = false := by decide
theorem test_wf_prn_refused : (Instr.prn 255).wellFormed = false := by decide
theorem test_wf_add_refused : (Instr.add 8 0).wellFormed = false ∧ (Instr.add 7 8).wellFormed = false := by decide
theorem test_wf_mul_refused : (Instr.mul 9 0).wellFormed = false ∧ (Instr.mul 0 9).wellFormed = false := by decide
theorem test_wf_cmp_refused : (Instr.cmp 8 8).wellFormed = false ∧ (Instr.cmp 0 255).wellFormed = false := by decide
theorem test_wf_push_refused : (Instr.push 8).wellFormed = false := by decide
theorem test_wf_pop_refused : (Instr.pop 8).wellFormed = false := by decide
theorem test_wf_call_refused : (Instr.call 8).wellFormed = false := by decide
theorem test_wf_jmp_refused : (Instr.jmp 8).wellFormed = false := by decide
theorem test_wf_jeq_refused : (Instr.jeq 8).wellFormed = false := by decide
theorem test_wf_jne_refused : (Instr.jne 8).wellFormed = false := by decide
theorem test_wf_accepts : (Instr.ldi 7 255).wellFormed ∧ Instr.hlt.wellFormed ∧ Instr.ret.wellFormed := by decide

/-! ## Decoding: each row's word, bit by bit from R46 -/

theorem test_decode_hlt : decode ⟨0b00000001, 0b11111111, 0b00001001⟩ = .ok .hlt := by decide
theorem test_decode_ldi : decode ⟨0b10000010, 0b00000011, 0b11001000⟩ = .ok (.ldi 3 200) := by decide
theorem test_decode_prn : decode ⟨0b01000111, 0b00000010, 0b11111111⟩ = .ok (.prn 2) := by decide
theorem test_decode_add : decode ⟨0b10100000, 0b00000001, 0b00000110⟩ = .ok (.add 1 6) := by decide
theorem test_decode_mul : decode ⟨0b10100010, 0b00000101, 0b00000010⟩ = .ok (.mul 5 2) := by decide
theorem test_decode_cmp : decode ⟨0b10100111, 0b00000111, 0b00000000⟩ = .ok (.cmp 7 0) := by decide
theorem test_decode_push : decode ⟨0b01000101, 0b00000100, 0b11111111⟩ = .ok (.push 4) := by decide
theorem test_decode_pop : decode ⟨0b01000110, 0b00000111, 0b11111111⟩ = .ok (.pop 7) := by decide
theorem test_decode_call : decode ⟨0b01010000, 0b00000001, 0b11111111⟩ = .ok (.call 1) := by decide
theorem test_decode_ret : decode ⟨0b00010001, 0b11111111, 0b11111111⟩ = .ok .ret := by decide
theorem test_decode_jmp : decode ⟨0b01010100, 0b00000010, 0b11111111⟩ = .ok (.jmp 2) := by decide
theorem test_decode_jeq : decode ⟨0b01010101, 0b00000011, 0b11111111⟩ = .ok (.jeq 3) := by decide
theorem test_decode_jne : decode ⟨0b01010110, 0b00000110, 0b11111111⟩ = .ok (.jne 6) := by decide

/-- R50: 0x00 (V1), the operand count 0b11 (V11) and a byte with bit 5 set (V12) are undefined. -/
theorem test_decode_undefined :
    decode ⟨0x00, 1, 2⟩ = .error (.undefinedOpcode 0x00) ∧ decode ⟨0xC0, 0, 0⟩ = .error (.undefinedOpcode 0xC0) ∧
    decode ⟨0xA1, 0, 1⟩ = .error (.undefinedOpcode 0xA1) := by decide

/-- V8, V9, V70. -/
theorem test_decode_register_range :
    decode ⟨0xA0, 9, 10⟩ = .error (.registerOutOfRange 9) ∧ decode ⟨0xA0, 0, 8⟩ = .error (.registerOutOfRange 8) ∧
    decode ⟨0x55, 9, 0⟩ = .error (.registerOutOfRange 9) := by decide

/-- E1's bytes `82 00 08` and R43's operand counts. -/
theorem test_encode :
    encode (.ldi 0 8) = [0x82, 0x00, 0x08] ∧ encode (.push 7) = [0x45, 0x07] ∧ encode .ret = [0x11] ∧
    operandCount 0x82 = 2 ∧ operandCount 0x45 = 1 ∧ operandCount 0x11 = 0 := by decide

/-- A table word's first byte is its low byte. -/
theorem test_table_words :
    decodeTableWord 24 0xC80082 = some (.ldi 0 200) ∧ decodeTableWord 16 0x0250 = some (.call 2) ∧
    decodeTableWord 8 0x11 = some .ret ∧ decodeTableWord 8 0x00 = none := by decide

/-- The word placed at the fetch runs as the first instruction after reset. -/
theorem test_withFetchWord :
    stepsTo (State.reset.withFetchWord 24 0xFF0382) (fun t => t.reg 3 == 255 && t.pc == 3) = true ∧
    stepsTo (State.reset.withFetchWord 8 0x01) (fun t => t.status == .halted && t.pc == 0) = true ∧
    stepsTo (State.reset.withFetchWord 16 0x0754) (fun t => t.pc == 0xF4) = true := by decide

/-! ## One step each, against 95_test_vectors.md -/

/-- V14. -/
theorem test_hlt : stepsTo (machine 11 [0x01] []) (fun t => t.status == .halted && t.pc == 11) = true := by decide
/-- V5. -/
theorem test_hlt_at_253 : stepsTo (machine 253 [0x01] []) (fun t => t.status == .halted && t.pc == 253) = true := by decide
/-- V15. -/
theorem test_ldi : stepsTo (machine 0 [0x82, 3, 0xFF] []) (fun t => t.reg 3 == 255 && t.pc == 3) = true := by decide
/-- V16. -/
theorem test_ldi_sp : stepsTo (machine 0 [0x82, 7, 0] []) (fun t => t.sp == 0 && t.pc == 3) = true := by decide
/-- V22. -/
theorem test_prn : stepsTo (machine 0 [0x47, 2, 0xFF] [(2, 7)]) (fun t => t.out == [7] && t.pc == 2) = true := by decide
/-- V21. -/
theorem test_prn_bad : faultsWith (machine 0 [0x47, 8] []) .registerBoundsError 8 = true := by decide
/-- V23. -/
theorem test_add_wraps :
    stepsTo (machine 0 [0xA0, 0, 1] [(0, 250), (1, 10)]) (fun t => t.reg 0 == 4 && t.reg 1 == 10 && t.pc == 3) = true := by
  decide
/-- V27. -/
theorem test_add_same : stepsTo (machine 0 [0xA0, 0, 0] [(0, 200)]) (fun t => t.reg 0 == 144) = true := by decide
/-- V32. -/
theorem test_mul_wraps :
    stepsTo (machine 0 [0xA2, 0, 1] [(0, 255), (1, 255)]) (fun t => t.reg 0 == 1 && t.reg 1 == 255) = true := by decide
/-- V38. -/
theorem test_mul_keeps_flags :
    stepsTo ((machine 0 [0xA2, 0, 1] [(0, 3), (1, 4)]).setFlags ⟨true, false, false⟩)
      (fun t => t.reg 0 == 12 && t.fl == ⟨true, false, false⟩) = true := by decide
/-- V45: unsigned. -/
theorem test_cmp_unsigned :
    stepsTo (machine 0 [0xA7, 0, 1] [(0, 128), (1, 127)]) (fun t => t.fl == ⟨false, true, false⟩ && t.pc == 3) = true := by
  decide
/-- V46: the previous flags are overwritten. -/
theorem test_cmp_overwrites :
    stepsTo ((machine 0 [0xA7, 0, 0] [(0, 9)]).setFlags ⟨false, false, true⟩)
      (fun t => t.fl == ⟨true, false, false⟩) = true := by decide
/-- V48: SP wraps. -/
theorem test_push_wraps :
    stepsTo (machine 0 [0x45, 0] [(0, 9), (7, 0)]) (fun t => t.sp == 0xFF && t.mem.read 0xFF == 9 && t.pc == 2) = true := by
  decide
/-- V49: PUSH R7 stores the new SP. -/
theorem test_push_sp :
    stepsTo (machine 0 [0x45, 7] []) (fun t => t.sp == 0xF3 && t.mem.read 0xF3 == 0xF3) = true := by decide
/-- V52. -/
theorem test_pop_wraps :
    stepsTo ((machine 0 [0x46, 0] [(7, 0xFF)]).placeByte 0xFF 7)
      (fun t => t.reg 0 == 7 && t.sp == 0 && t.mem.read 0xFF == 7) = true := by decide
/-- V53: POP R7. -/
theorem test_pop_sp :
    stepsTo ((machine 0 [0x46, 7] [(7, 0xF3)]).placeByte 0xF3 0x10) (fun t => t.sp == 0x11) = true := by decide
/-- V56. -/
theorem test_call :
    stepsTo (machine 6 [0x50, 1] [(1, 11)]) (fun t => t.sp == 0xF3 && t.mem.read 0xF3 == 8 && t.pc == 11) = true := by
  decide
/-- V57: CALL R7. -/
theorem test_call_sp :
    stepsTo (machine 0 [0x50, 7] []) (fun t => t.mem.read 0xF3 == 2 && t.pc == 0xF3) = true := by decide
/-- V61. -/
theorem test_ret_wraps :
    stepsTo ((machine 0 [0x11] [(7, 0xFF)]).placeByte 0xFF 0x30) (fun t => t.pc == 0x30 && t.sp == 0) = true := by decide
/-- V62. -/
theorem test_ret_at_254 : faultsWith (machine 254 [0x11, 0] []) .memoryBoundsError 256 = true := by decide
/-- V63. -/
theorem test_jmp : stepsTo (machine 0 [0x54, 2] [(2, 0x40)]) (fun t => t.pc == 0x40) = true := by decide
/-- V66. -/
theorem test_jeq_taken :
    stepsTo ((machine 9 [0x55, 3] [(3, 0x20)]).setFlags ⟨true, false, false⟩) (fun t => t.pc == 0x20) = true := by decide
/-- V67. -/
theorem test_jeq_not_taken :
    stepsTo ((machine 9 [0x55, 3] [(3, 0x20)]).setFlags ⟨false, true, false⟩) (fun t => t.pc == 11) = true := by decide
/-- V72. -/
theorem test_jne_taken :
    stepsTo ((machine 20 [0x56, 3] [(3, 12)]).setFlags ⟨false, false, true⟩) (fun t => t.pc == 12) = true := by decide
/-- V71. -/
theorem test_jne_not_taken :
    stepsTo ((machine 20 [0x56, 3] [(3, 12)]).setFlags ⟨true, false, false⟩) (fun t => t.pc == 22) = true := by decide

/-- V1, V7. -/
theorem test_undefined_opcode :
    faultsWith (machine 0 [0x00] [(0, 5)]) .decodeError 0 = true ∧
    faultsWith (machine 10 [0xFF, 9, 9] []) .decodeError 0xFF = true := by decide
/-- V4, V6. -/
theorem test_top_of_memory :
    faultsWith (State.reset.setPc 256) .memoryBoundsError 256 = true ∧
    faultsWith (machine 254 [0xFF, 0] []) .memoryBoundsError 256 = true := by decide
/-- V10, V13. -/
theorem test_final_states :
    hostStep (State.reset.setStatus .halted) = State.reset.setStatus .halted ∧
    hostStep (State.reset.setStatus (.faulted ⟨.decodeError, 0, 0⟩)) =
      State.reset.setStatus (.faulted ⟨.decodeError, 0, 0⟩) := ⟨rfl, rfl⟩
/-- R18: E at bit 0, G at bit 1, L at bit 2. -/
theorem test_flag_bits :
    Flags.toBits ⟨true, false, false⟩ = 0b001 ∧ Flags.toBits ⟨false, true, false⟩ = 0b010 ∧
    Flags.toBits ⟨false, false, true⟩ = 0b100 := by decide
/-- V76: the empty image is reset. -/
theorem test_empty_image : construct [] = State.reset := rfl
/-- The line of R53's example gives 0x82. -/
theorem test_listing_line :
    parseLines [['1', '0', '0', '0', '0', '0', '1', '0', ' ', '#', ' ', 'L', 'D', 'I'], [' ', '#'], []] =
      .ok [0x82] := by decide
/-- D18: two tokens, nine digits, a digit 2. -/
theorem test_listing_bad :
    parseLines [['1', ' ', '0']] = .error .loadError ∧ parseLines [List.replicate 9 '1'] = .error .loadError ∧
    parseLines [['2']] = .error .loadError := by decide

/-! ## Witnesses: states and operands that meet the hypotheses of the statements -/

theorem witness_ConstructLoadsImage :
    ([] : List Byte).length ≤ 256 ∧ (List.replicate 256 (1 : Byte)).length ≤ 256 ∧ 255 < (List.replicate 256 (1 : Byte)).length := by
  rw [List.length_replicate]
  decide

theorem witness_OversizedImageFaults :
    256 < (List.replicate 257 (1 : Byte)).length ∧ 255 < (List.replicate 257 (1 : Byte)).length := by
  rw [List.length_replicate]
  decide

theorem reset_inv : State.reset.Inv :=
  ⟨by decide, by decide, by decide, trivial⟩

theorem witness_StepKeepsInvariant : State.reset.Inv ∧ ∃ t, step State.reset = .next t := ⟨reset_inv, _, rfl⟩

theorem witness_MemReadChecksBounds : 256 ≤ 256 ∧ 255 < 256 := by decide

theorem witness_MemWriteChecksBounds : State.reset.mem.wf = true ∧ 256 ≤ 256 ∧ 255 < 256 := by decide

theorem witness_DecodeOfEncode :
    (Instr.ldi 7 255).wellFormed = true ∧ encode (.ldi 7 255) <+: [0x82, 7, 255] ∧
    Instr.hlt.wellFormed = true ∧ encode .hlt <+: [0x01, 255, 255] := by decide

theorem witness_EncodeOfDecode :
    decode ⟨0x47, 7, 0⟩ = .ok (.prn 7) ∧ decode ⟨0x00, 0, 0⟩ = .error (.undefinedOpcode 0) ∧
    decode ⟨0xA0, 7, 8⟩ = .error (.registerOutOfRange 8) := by decide

/-- Fetching, at address 0 and at the last fetchable address, 253. -/
theorem fetches_first (w : Fetched) (h : w = ⟨0x82, 7, 255⟩) : (machine 0 [0x82, 7, 255] []).Fetches w := by
  subst h
  exact ⟨rfl, by decide, by decide, by decide, by decide⟩

theorem fetches_last : (machine 253 [0x01, 0, 0] []).Fetches ⟨0x01, 0, 0⟩ :=
  ⟨rfl, by decide, by decide, by decide, by decide⟩

theorem witness_StepRunsDecodedInstr :
    (machine 253 [0x01, 0, 0] []).Fetches ⟨0x01, 0, 0⟩ ∧ decode ⟨0x01, 0, 0⟩ = .ok .hlt :=
  ⟨fetches_last, by decide⟩

theorem witness_FetchAtTopOfMemoryFaults :
    (State.reset.setPc 254).status = .running ∧ 254 ≤ (State.reset.setPc 254).pc ∧ (State.reset.setPc 256).pc ≤ 256 := by
  decide

theorem witness_UndefinedOpcodeFaults :
    (machine 253 [0xFF, 0, 0] []).Fetches ⟨0xFF, 0, 0⟩ ∧ (0xFF : Byte) ∉ definedOpcodes :=
  ⟨⟨rfl, by decide, by decide, by decide, by decide⟩, by decide⟩

theorem witness_RegisterOperandOutOfRangeFaults :
    (machine 0 [0xA0, 8, 8] []).Fetches ⟨0xA0, 8, 8⟩ ∧ 8 ≤ (8 : Byte).toNat ∧
    (machine 0 [0xA0, 7, 8] []).Fetches ⟨0xA0, 7, 8⟩ ∧ (7 : Byte).toNat < 8 ∧
    (machine 0 [0x82, 255, 0] []).Fetches ⟨0x82, 255, 0⟩ :=
  ⟨⟨rfl, by decide, by decide, by decide, by decide⟩, by decide, ⟨rfl, by decide, by decide, by decide, by decide⟩,
    by decide, ⟨rfl, by decide, by decide, by decide, by decide⟩⟩

theorem witness_FinalStatesStay :
    (State.reset.setStatus .halted).status ≠ .running ∧
    (State.reset.setStatus (.faulted ⟨.decodeError, 0, 0⟩)).status ≠ .running := by decide

theorem witness_RunningStepsHaveNextState : State.reset.status = .running := rfl

theorem witness_FaultingCycleCommitsNothing :
    step State.reset = .next (State.reset.setStatus (.faulted ⟨.decodeError, 0, 0⟩)) := rfl

theorem witness_MemoryBoundsOnlyFromFetch :
    (State.reset.setPc 256).pc ≤ 256 ∧
    step (State.reset.setPc 256) =
      .next ((State.reset.setPc 256).setStatus (.faulted ⟨.memoryBoundsError, 256, 256⟩)) ∧
    State.reset.status = .running ∧
    exec (.prn 8) State.reset = .next (State.reset.setStatus (.faulted ⟨.registerBoundsError, 8, 0⟩)) :=
  ⟨by decide, rfl, rfl, rfl⟩

theorem witness_HandlersRaiseNothing :
    (Instr.ldi 7 1).wellFormed = true ∧ ∃ t, exec (.ldi 7 1) State.reset = .next t := ⟨by decide, _, rfl⟩

theorem witness_HltIsTheOnlyStop :
    step (machine 253 [0x01] []) = .next ((machine 253 [0x01] []).setStatus .halted) ∧
    ((machine 253 [0x01] []).setStatus .halted).status = .halted := ⟨rfl, rfl⟩

/-- The clauses of LDI and PRN (and of PUSH, POP, CALL, JMP) meet at operands 7 and 8. -/
theorem witness_register_operand_results :
    (7 : Byte).toNat < 8 ∧ 8 ≤ (8 : Byte).toNat ∧ (machine 0 [0x82, 7, 255] []).Fetches ⟨0x82, 7, 255⟩ ∧
    (machine 0 [0x47, 7, 0] []).Fetches ⟨0x47, 7, 0⟩ ∧ (machine 0 [0x45, 7, 0] []).Fetches ⟨0x45, 7, 0⟩ ∧
    (machine 0 [0x46, 7, 0] []).Fetches ⟨0x46, 7, 0⟩ ∧ (machine 0 [0x50, 7, 0] []).Fetches ⟨0x50, 7, 0⟩ ∧
    (machine 0 [0x54, 7, 0] []).Fetches ⟨0x54, 7, 0⟩ ∧ (machine 0 [0x11, 0, 0] []).Fetches ⟨0x11, 0, 0⟩ :=
  ⟨by decide, by decide, fetches_first _ rfl, ⟨rfl, by decide, by decide, by decide, by decide⟩,
    ⟨rfl, by decide, by decide, by decide, by decide⟩, ⟨rfl, by decide, by decide, by decide, by decide⟩,
    ⟨rfl, by decide, by decide, by decide, by decide⟩, ⟨rfl, by decide, by decide, by decide, by decide⟩,
    ⟨rfl, by decide, by decide, by decide, by decide⟩⟩

/-- POP's first clause needs an operand other than 7. -/
theorem witness_PopResult : (6 : Byte).toNat < 8 ∧ (6 : Byte).toNat ≠ 7 := by decide

/-- CALL's return byte, at the last fetchable address. -/
theorem witness_CallResult : (machine 253 [0x50] []).pc ≤ 253 := by decide

/-- JMP to its own address. -/
theorem witness_JmpResult : (machine 0 [0x54, 0] []).regs[(0 : Byte).toNat].toNat = (machine 0 [0x54, 0] []).pc := by
  decide

/-- Two register operands, and the three outcomes of a comparison. -/
theorem witness_alu_results :
    (machine 0 [0xA0, 0, 7] []).Fetches ⟨0xA0, 0, 7⟩ ∧ (machine 0 [0xA2, 0, 7] []).Fetches ⟨0xA2, 0, 7⟩ ∧
    (machine 0 [0xA7, 0, 7] []).Fetches ⟨0xA7, 0, 7⟩ ∧
    State.reset.regs[(0 : Byte).toNat] = State.reset.regs[(1 : Byte).toNat] ∧
    State.reset.regs[(7 : Byte).toNat].toNat > State.reset.regs[(0 : Byte).toNat].toNat ∧
    State.reset.regs[(0 : Byte).toNat].toNat < State.reset.regs[(7 : Byte).toNat].toNat :=
  ⟨⟨rfl, by decide, by decide, by decide, by decide⟩, ⟨rfl, by decide, by decide, by decide, by decide⟩,
    ⟨rfl, by decide, by decide, by decide, by decide⟩, by decide, by decide, by decide⟩

/-- Both branches of JEQ and JNE, and their fetch. -/
theorem witness_JeqResult_JneResult :
    State.reset.fl.e = false ∧ (State.reset.setFlags ⟨true, false, false⟩).fl.e = true ∧
    (machine 0 [0x55, 7, 0] []).Fetches ⟨0x55, 7, 0⟩ ∧ (machine 0 [0x56, 7, 0] []).Fetches ⟨0x56, 7, 0⟩ :=
  ⟨rfl, rfl, ⟨rfl, by decide, by decide, by decide, by decide⟩, ⟨rfl, by decide, by decide, by decide, by decide⟩⟩

theorem witness_frames :
    ((Instr.add 0 7).wellFormed = true ∧ ∃ t, exec (.add 0 7) State.reset = .next t) ∧
    ((Instr.cmp 0 7).wellFormed = true ∧ ∃ t, exec (.cmp 0 7) State.reset = .next t) ∧
    ((Instr.prn 7).wellFormed = true ∧ ∃ t, exec (.prn 7) State.reset = .next t) ∧
    ((Instr.push 7).wellFormed = true ∧ ∃ t, exec (.push 7) State.reset = .next t) ∧
    ((Instr.call 7).wellFormed = true ∧ ∃ t, exec (.call 7) State.reset = .next t) ∧
    ((Instr.pop 7).wellFormed = true ∧ ∃ t, exec (.pop 7) State.reset = .next t) ∧
    ((Instr.jmp 7).wellFormed = true ∧ ∃ t, exec (.jmp 7) State.reset = .next t) ∧
    ((Instr.jeq 7).wellFormed = true ∧ ∃ t, exec (.jeq 7) State.reset = .next t) ∧
    ((Instr.jne 7).wellFormed = true ∧ ∃ t, exec (.jne 7) State.reset = .next t) :=
  ⟨⟨by decide, _, rfl⟩, ⟨by decide, _, rfl⟩, ⟨by decide, _, rfl⟩, ⟨by decide, _, rfl⟩, ⟨by decide, _, rfl⟩,
    ⟨by decide, _, rfl⟩, ⟨by decide, _, rfl⟩, ⟨by decide, _, rfl⟩, ⟨by decide, _, rfl⟩⟩

/-- A step that changes a byte of memory and a register, for the whole-machine rules. -/
theorem witness_MemoryOnlyByPushAndCall_RegistersOnlyByDestination :
    stepsTo (machine 0 [0x45, 7] []) (fun t => t.mem.read 0xF3 != (machine 0 [0x45, 7] []).mem.read 0xF3 &&
      t.reg 7 != (machine 0 [0x45, 7] []).reg 7) = true := by decide

/-- Every step is one for FlagsOnlyByCmp, OutputOnlyByPrn and GreaterLessAndOutputUnread. -/
theorem witness_step_rules : ∃ t, step (machine 0 [0xA7, 0, 7] []) = .next t := ⟨_, rfl⟩

theorem witness_PushThenPopRestores_CallThenRetReturns :
    (machine 253 [0x50, 7, 0] []).mem.wf = true ∧ (machine 253 [0x50, 7, 0] []).pc ≤ 253 ∧ (7 : Byte).toNat < 8 := by
  decide

theorem witness_CmpThenJumps :
    (7 : Byte).toNat < 8 ∧ State.reset.regs[(0 : Byte).toNat] = State.reset.regs[(1 : Byte).toNat] ∧
    State.reset.regs[(0 : Byte).toNat] ≠ State.reset.regs[(7 : Byte).toNat] := by decide

/-- P6: a push into the next instruction's opcode; then into its second and third byte. -/
theorem witness_StoreSeenByNextFetch :
    (machine 6 [0x45, 0] [(0, 1), (7, 9)]).mem.wf = true ∧
    stepsTo (machine 6 [0x45, 0] [(0, 1), (7, 9)]) (fun t => t.pc == 8 && t.mem.read 8 == 1) = true ∧
    (machine 6 [0x45, 0] [(0, 1), (7, 9)]).decSp.sp.toNat = 8 ∧
    (machine 6 [0x45, 0] [(0, 1), (7, 10)]).decSp.sp.toNat = 8 + 1 ∧
    (machine 6 [0x45, 0] [(0, 1), (7, 11)]).decSp.sp.toNat = 8 + 2 := by decide

/-- A different memory that agrees at PC, PC+1, PC+2 and SP. -/
theorem witness_ReadsOnlyFetchAndStack :
    (machine 0 [0x46, 1] []).mem ≠ (machine 0 [0x46, 1, 0, 5] []).mem ∧
    (machine 0 [0x46, 1, 0, 5] []).mem.read 0 = (machine 0 [0x46, 1] []).mem.read 0 ∧
    (machine 0 [0x46, 1, 0, 5] []).mem.read 1 = (machine 0 [0x46, 1] []).mem.read 1 ∧
    (machine 0 [0x46, 1, 0, 5] []).mem.read 2 = (machine 0 [0x46, 1] []).mem.read 2 ∧
    (machine 0 [0x46, 1, 0, 5] []).mem.read 0xF4 = (machine 0 [0x46, 1] []).mem.read 0xF4 := by decide

/-- Eight digits with a comment, one digit between blanks, and a line with a comment only. -/
def listingWitness : List ListingLine :=
  [⟨[], [true, false, false, false, false, false, true, false], [' '], some ['L', 'D', 'I']⟩,
    ⟨[' ', '\t'], [true], ['\r'], none⟩, ⟨[' '], [], [], some []⟩]

theorem witness_ListingLoadsItsBytes :
    (∀ line ∈ listingWitness, line.Accepted) ∧ listingWitness.filterMap ListingLine.byte? = [0x82, 1] := by
  simp [listingWitness, ListingLine.Accepted, BlanksOnly, isBlank, commentText, ListingLine.byte?]

/-- Nine digits, and a token with a character that is no binary digit. -/
theorem witness_BadTokenIsLoadError :
    BadToken (List.replicate 9 '1') ∧ BadToken ['1', ' ', '0'] ∧ BlanksOnly [' '] ∧
    [' '] ++ ['1', ' ', '0'] ++ [] ++ commentText none ∈ [['1'], [' ', '1', ' ', '0']] ∧
    ∀ line ∈ [['1'], [' ', '1', ' ', '0']], '\n' ∉ line :=
  ⟨⟨by decide, by decide, ⟨'1', by decide⟩, ⟨'1', by decide⟩, by decide⟩,
    ⟨by decide, by decide, ⟨'1', by decide⟩, ⟨'0', by decide⟩, .inr ⟨' ', by simp, by decide⟩⟩, by simp [BlanksOnly, isBlank],
    by decide, by decide⟩

theorem witness_LoadErrorBuildsNoCore :
    loadImage (some ['2']) = .error .loadError ∧ loadImage (some ['1']) = .ok [1] := by decide

/-- The last byte of memory, shown as a trace's first (pc 255) and third byte (pc 253). -/
theorem witness_InspectAndTraceShowState :
    7 < 8 ∧ 255 < 256 ∧ (State.reset.setPc 255).pc + 0 < 256 ∧ (State.reset.setPc 253).pc + 2 < 256 := by decide

end Sys2Proof.Tests
end

namespace Sys2Proof.Machine

/-- Settles O8: the two clauses of R27 are the two cases of `memRead`'s range check. -/
theorem memReadChecksBounds : Obligations.MemReadChecksBounds := by
  intro a s
  exact ⟨fun above => memRead_outOfRange above s, fun below => memRead_inRange below s⟩

end Sys2Proof.Machine

namespace Sys2Proof.Machine

/-- A run requested in a final state keeps it (R56, R62). -/
theorem hostRun_final {s : State} (h : s.status ≠ .running) (n : Nat) : hostRun n s = s := by
  cases n with
  | zero => rfl
  | succ n =>
    rw [hostRun]
    cases hs : s.status with
    | running => exact absurd hs h
    | halted => rfl
    | faulted f => rfl

@[simp] theorem hostRun_faultedWith (n : Nat) (s : State) (cls : ErrorClass) (value : Nat) :
    hostRun n (s.faultedWith cls value) = s.faultedWith cls value :=
  hostRun_final (fun running => Status.noConfusion running) n

/-- The bytes a state fetches are the three at `pc`. -/
theorem State.Fetches.bytesAtPc_eq {s : State} {w : Fetched} (h : s.Fetches w) : bytesAtPc s = w := by
  obtain ⟨-, -, hop, ha, hb⟩ := h
  rw [bytesAtPc, hop, ha, hb]

/-- A cycle whose bytes decoding rejects faults with the rejection's error, at its own `pc` (R58, R60). -/
theorem State.Fetches.step_of_decode_error {s : State} {w : Fetched} {r : DecodeReject} (h : s.Fetches w)
    (hd : decode w = .error r) : step s = .next (s.faultedWith (rejectError r).cls (rejectError r).value) := by
  have hbytes := h.bytesAtPc_eq
  obtain ⟨hrun, hpc, -⟩ := h
  have hf : fetchDecode s = .error (rejectError r) := by
    rw [fetchDecode_inRange hpc, hbytes, hd]
    rfl
  rw [step_running hrun, hf]
  rfl

/-- Outside the 13 opcodes the table's last row alone applies. -/
theorem lookupOpcode_undefined {w : Fetched} (h : w.opcode ∉ definedOpcodes) : lookupOpcode w = none := by
  have hne := h
  simp only [definedOpcodes, List.mem_cons, List.not_mem_nil, or_false, not_or, BitVec.ofNat_eq_ofNat] at hne
  simpa [hne, h] using lookup_table w

theorem decode_undefined {w : Fetched} (h : w.opcode ∉ definedOpcodes) :
    decode w = .error (.undefinedOpcode w.opcode) := by
  rw [decode, lookupOpcode_undefined h]

/-- The numbers below 256 that stand for a defined opcode are the 13 of the list, each once. -/
theorem range_filter_definedOpcodes_perm :
    ((List.range 256).filter (fun n => byteOf n ∈ definedOpcodes)).Perm (definedOpcodes.map BitVec.toNat) := by
  refine (List.perm_ext_iff_of_nodup (List.nodup_range.filter _) (by decide)).2 fun n => ?_
  simp only [List.mem_filter, List.mem_range, decide_eq_true_eq, List.mem_map]
  constructor
  · rintro ⟨hn, hdef⟩
    exact ⟨byteOf n, hdef, (BitVec.toNat_ofNat n 8).trans (Nat.mod_eq_of_lt hn)⟩
  · rintro ⟨op, hdef, rfl⟩
    exact ⟨op.isLt, by simpa [byteOf] using hdef⟩

/-- 256 bytes less the 13 opcodes. -/
theorem undefinedOpcodes_length :
    ((List.range 256).filter (fun n => byteOf n ∉ definedOpcodes)).length = 243 := by
  have hdef := range_filter_definedOpcodes_perm.length_eq
  have hsplit := List.length_eq_length_filter_add (l := List.range 256) (fun n => decide (byteOf n ∈ definedOpcodes))
  simp only [List.length_range, ← decide_not] at hsplit
  rw [hdef] at hsplit
  exact Nat.add_left_cancel hsplit.symm

/-- Settles O15: 243 bytes are left beside the 13 opcodes; decoding rejects each of them, the cycle takes that
error, and a faulted state keeps every run. -/
theorem undefinedOpcodeFaults : Obligations.UndefinedOpcodeFaults := by
  refine ⟨undefinedOpcodes_length, by decide, fun s w hfetch hundef => ⟨?_, fun n => ?_⟩⟩
  · exact hfetch.step_of_decode_error (decode_undefined hundef)
  · exact hostRun_faultedWith n s .decodeError w.opcode.toNat

end Sys2Proof.Machine

/-! ## The opcode map as the encoder's inverse (R42, R46, R47) -/

namespace Sys2Proof

open Machine

/-- The opcode map gives an instruction exactly for the bytes that begin with its encoding. -/
theorem lookupOpcode_eq_some_iff (w : Fetched) (i : Instr) :
    lookupOpcode w = some i ↔ encode i <+: [w.opcode, w.operandA, w.operandB] := by
  constructor
  · intro h
    have table := lookup_table w
    simp only [h, Option.some.injEq, reduceCtorEq, and_false, or_false] at table
    rcases table with ⟨hop, rfl⟩ | ⟨hop, rfl⟩ | ⟨hop, rfl⟩ | ⟨hop, rfl⟩ | ⟨hop, rfl⟩ | ⟨hop, rfl⟩ | ⟨hop, rfl⟩ |
      ⟨hop, rfl⟩ | ⟨hop, rfl⟩ | ⟨hop, rfl⟩ | ⟨hop, rfl⟩ | ⟨hop, rfl⟩ | ⟨hop, rfl⟩ <;> simp [encode, hop]
  · obtain ⟨op, x, y⟩ := w
    intro h
    cases i <;> simp only [encode, List.cons_prefix_cons, List.nil_prefix, and_true] at h
    case hlt | ret => subst h; rfl
    case ldi | add | mul | cmp => obtain ⟨rfl, rfl, rfl⟩ := h; rfl
    all_goals obtain ⟨rfl, rfl⟩ := h; rfl

/-- The opcode map gives nothing exactly for the 243 other bytes (R45, R50). -/
theorem lookupOpcode_eq_none_iff (w : Fetched) : lookupOpcode w = none ↔ w.opcode ∉ definedOpcodes := by
  refine ⟨fun h => ?_, lookupOpcode_undefined⟩
  simpa [h] using lookup_table w

theorem encode_head_defined {i : Instr} {w : Fetched} (h : encode i <+: [w.opcode, w.operandA, w.operandB]) :
    w.opcode ∈ definedOpcodes := by
  by_contra hundef
  rw [← lookupOpcode_eq_some_iff, lookupOpcode_undefined hundef] at h
  cases h

open Laws in
/-- The law of the register operands for every instruction. -/
theorem encodeRegOperands : ∀ i : Instr, EncodeRegOperands.Statement i
  | .hlt => EncodeRegOperands.hlt
  | .ldi a v => EncodeRegOperands.ldi a v
  | .prn a => EncodeRegOperands.prn a
  | .add a b => EncodeRegOperands.add a b
  | .mul a b => EncodeRegOperands.mul a b
  | .cmp a b => EncodeRegOperands.cmp a b
  | .push a => EncodeRegOperands.push a
  | .pop a => EncodeRegOperands.pop a
  | .call a => EncodeRegOperands.call a
  | .ret => EncodeRegOperands.ret
  | .jmp a => EncodeRegOperands.jmp a
  | .jeq a => EncodeRegOperands.jeq a
  | .jne a => EncodeRegOperands.jne a

/-- The register operands are the first operand bytes of the encoding. -/
theorem regOperands_isPrefix {i : Instr} {op a b : Byte} (h : encode i <+: [op, a, b]) :
    i.regOperands <+: [a, b] := by
  obtain ⟨hregs, -⟩ := encodeRegOperands i
  have htail := List.IsPrefix.drop h 1
  rw [List.drop_one] at htail
  exact hregs.trans htail

/-- Settles O11: the encoding selects the row, and a well-formed instruction passes the operand check. -/
theorem decodeOfEncode : Obligations.DecodeOfEncode := fun i w hwf henc =>
  (decode_ok_iff w i).2 ⟨(lookupOpcode_eq_some_iff w i).2 henc, hwf⟩

theorem decode_undefinedOpcode_iff (w : Fetched) (op : Byte) :
    decode w = .error (.undefinedOpcode op) ↔ op = w.opcode ∧ w.opcode ∉ definedOpcodes := by
  constructor
  · intro h
    rcases decode_error_cases h with ⟨hnone, hop⟩ | ⟨i, v, -, -, -, hv⟩
    · exact ⟨DecodeReject.undefinedOpcode.inj hop, (lookupOpcode_eq_none_iff w).1 hnone⟩
    · cases hv
  · rintro ⟨rfl, hundef⟩
    exact decode_undefined hundef

/-- A register operand is rejected exactly when it is the first one out of range (R58). -/
theorem decode_registerOutOfRange_iff (w : Fetched) (v : Byte) :
    decode w = .error (.registerOutOfRange v) ↔
      ∃ i, lookupOpcode w = some i ∧ i.regOperands.find? (fun u => !regInRange u) = some v := by
  unfold decode
  cases hl : lookupOpcode w with
  | none => simp
  | some i => cases hf : i.regOperands.find? (fun u => !regInRange u) <;> simp [checkedOperands, hf]

/-- The search for a bad register operand takes the first byte if it is out of range, else goes on. -/
theorem findBad_cons (a v : Byte) (rest : List Byte) :
    (a :: rest).find? (fun u => !regInRange u) = some v ↔
      (8 ≤ a.toNat ∧ a = v) ∨ (a.toNat < 8 ∧ rest.find? (fun u => !regInRange u) = some v) := by
  by_cases ha : a.toNat < 8
  · rw [List.find?_cons_of_neg (by simpa [regInRange] using ha)]
    simp [ha, Nat.not_le.2 ha]
  · rw [List.find?_cons_of_pos (by simpa [regInRange] using ha)]
    simp [ha, Nat.le_of_not_lt ha]

/-- The first bad register operand is `operand_a`, or `operand_b` after an `operand_a` in range. -/
theorem find_regOperands_cases {i : Instr} {op a b v : Byte} (h : encode i <+: [op, a, b])
    (hf : i.regOperands.find? (fun u => !regInRange u) = some v) :
    8 ≤ v.toNat ∧ (v = a ∨ (a.toNat < 8 ∧ v = b)) := by
  obtain ⟨rest, hrest⟩ := regOperands_isPrefix h
  have hbytes : [a, b].find? (fun u => !regInRange u) = some v := by
    rw [← hrest, List.find?_append, hf, Option.some_or]
  rw [findBad_cons, findBad_cons] at hbytes
  rcases hbytes with ⟨hv, rfl⟩ | ⟨ha, ⟨hv, rfl⟩ | ⟨-, hnone⟩⟩
  · exact ⟨hv, .inl rfl⟩
  · exact ⟨hv, .inr ⟨ha, rfl⟩⟩
  · cases hnone

/-- Settles O12: the opcode map inverts the encoder, and each rejection names what it found. -/
theorem encodeOfDecode : Obligations.EncodeOfDecode := by
  refine fun w => ⟨fun i h => ?_, decode_undefinedOpcode_iff w, fun v h => ?_⟩
  · obtain ⟨hl, hwf⟩ := (decode_ok_iff w i).1 h
    exact ⟨hwf, (lookupOpcode_eq_some_iff w i).1 hl⟩
  · obtain ⟨i, hl, hf⟩ := (decode_registerOutOfRange_iff w v).1 h
    have henc := (lookupOpcode_eq_some_iff w i).1 hl
    exact ⟨encode_head_defined henc, find_regOperands_cases henc hf⟩

/-- Settles O10, by evaluating each word. -/
theorem tableWordsDecode : Obligations.TableWordsDecode := by
  unfold Obligations.TableWordsDecode
  decide

end Sys2Proof

/-! ## The cycle and the host's runs (R55 to R62) -/

namespace Sys2Proof.Machine

/-- A cycle whose bytes decode runs their instruction on the state as it is (R59). -/
theorem State.Fetches.step_of_decode_ok {s : State} {w : Fetched} {i : Instr} (h : s.Fetches w)
    (hd : decode w = .ok i) : step s = exec i s := by
  have hbytes := h.bytesAtPc_eq
  obtain ⟨hrun, hpc, -⟩ := h
  have hf : fetchDecode s = .ok i := by
    rw [fetchDecode_inRange hpc, hbytes, hd]
    rfl
  rw [step_running hrun, hf]

/-- Settles O13. -/
theorem stepRunsDecodedInstr : Obligations.StepRunsDecodedInstr := fun _ _ _ => State.Fetches.step_of_decode_ok

/-- A cycle that starts at 254 to 256 ends in the fetch's error, recorded at its own `pc`. -/
theorem topFaults (s : State) : s.TopFaults := by
  intro hrun hlow hhigh
  rw [step_running hrun, fetchDecode_outOfRange hlow, Nat.max_eq_left hhigh]
  rfl

/-- Settles O14: the fetch fails before anything else of the cycle. -/
theorem fetchAtTopOfMemoryFaults : Obligations.FetchAtTopOfMemoryFaults := topFaults

/-- A cycle whose row has `v` as its first bad register operand faults with it (R58, R87). -/
theorem State.Fetches.step_of_bad_register {s : State} {w : Fetched} {i : Instr} {v : Byte} (h : s.Fetches w)
    (hl : lookupOpcode w = some i) (hf : i.regOperands.find? (fun u => !regInRange u) = some v) :
    step s = .next (s.faultedWith .registerBoundsError v.toNat) :=
  h.step_of_decode_error ((decode_registerOutOfRange_iff w v).2 ⟨i, hl, hf⟩)

/-- The 11 rows whose `operand_a` is a register (R46). -/
theorem lookupOpcode_regOperandA {w : Fetched}
    (h : w.opcode ∈ [0x82, 0x47, 0xA0, 0xA2, 0xA7, 0x45, 0x46, 0x50, 0x54, 0x55, 0x56]) :
    ∃ i rest, lookupOpcode w = some i ∧ i.regOperands = w.operandA :: rest := by
  obtain ⟨op, a, b⟩ := w
  simp only [List.mem_cons, List.not_mem_nil, or_false] at h
  rcases h with rfl | rfl | rfl | rfl | rfl | rfl | rfl | rfl | rfl | rfl | rfl <;> exact ⟨_, _, rfl, rfl⟩

/-- The three rows with two register operands (R46). -/
theorem lookupOpcode_regOperandsAB {w : Fetched} (h : w.opcode ∈ [0xA0, 0xA2, 0xA7]) :
    ∃ i, lookupOpcode w = some i ∧ i.regOperands = [w.operandA, w.operandB] := by
  obtain ⟨op, a, b⟩ := w
  simp only [List.mem_cons, List.not_mem_nil, or_false] at h
  rcases h with rfl | rfl | rfl <;> exact ⟨_, rfl, rfl⟩

/-- Settles O16: the row's register operands are searched from `operand_a` on. -/
theorem registerOperandOutOfRangeFaults : Obligations.RegisterOperandOutOfRangeFaults := by
  refine fun s w hfetch => ⟨fun hop ha => ?_, fun hop ha hb => ?_⟩
  · obtain ⟨i, rest, hl, hregs⟩ := lookupOpcode_regOperandA hop
    refine hfetch.step_of_bad_register hl ?_
    rw [hregs, findBad_cons]
    exact .inl ⟨ha, rfl⟩
  · obtain ⟨i, hl, hregs⟩ := lookupOpcode_regOperandsAB hop
    refine hfetch.step_of_bad_register hl ?_
    rw [hregs, findBad_cons, findBad_cons]
    exact .inr ⟨ha, .inl ⟨hb, rfl⟩⟩

/-- A step when the run is over is the fault that says so. -/
theorem step_of_whenFinal {s : State} {o : Host.Outcome State Fault Refusal} (h : whenFinal s = some o) :
    step s = o := by
  unfold step
  rw [h]

theorem step_halted {s : State} (h : s.status = .halted) : step s = .fault .runHalted :=
  step_of_whenFinal (by rw [whenFinal, h])

theorem step_faulted {s : State} {f : FaultRecord} (h : s.status = .faulted f) : step s = .fault (.runFaulted f) :=
  step_of_whenFinal (by rw [whenFinal, h])

theorem step_final_ne_next {s : State} (h : s.status ≠ .running) (t : State) : step s ≠ .next t :=
  fun hstep => h (step_cases hstep).1

theorem hostStep_final {s : State} (h : s.status ≠ .running) : hostStep s = s := by
  unfold hostStep
  cases hstep : step s with
  | next t => exact absurd hstep (step_final_ne_next h t)
  | fault r => rfl
  | refused r => rfl

/-- Settles O17: `step` answers by the status alone in a final state, and no run gets past it. -/
theorem finalStatesStay : Obligations.FinalStatesStay := fun _ hfinal =>
  ⟨hostStep_final hfinal, hostRun_final hfinal, step_final_ne_next hfinal, step_halted, fun _ => step_faulted⟩

/-- One cycle of a run, in final states too, where it keeps the state. -/
theorem hostRun_succ (n : Nat) (s : State) : hostRun (n + 1) s = hostRun n (hostStep s) := by
  by_cases hrun : s.status = .running
  · rw [hostRun, hrun]
  · rw [hostStep_final hrun, hostRun_final hrun, hostRun_final hrun]

theorem hostRun_eq_iterate (n : Nat) (s : State) : hostRun n s = hostStep^[n] s := by
  induction n generalizing s with
  | zero => rfl
  | succ n ih => rw [hostRun_succ, ih, Function.iterate_succ_apply]

/-- Settles O25: a bounded run is the iteration of the host's step. -/
theorem boundedRunSplits : Obligations.BoundedRunSplits := by
  refine fun m n s => ⟨rfl, hostRun_succ 0 s, ?_⟩
  rw [Nat.add_comm]
  simp only [hostRun_eq_iterate, Function.iterate_add_apply]

end Sys2Proof.Machine

/-! ## What a handler does: one equation for all 13 (R66 to R82) -/

namespace Sys2Proof.Machine

/-- The register an operand byte below 8 names. -/
def operandReg (operand : Byte) : Fin 8 := Fin.ofNat 8 operand.toNat

theorem operandReg_val {v : Byte} (h : v.toNat < 8) : (operandReg v).val = v.toNat := Nat.mod_eq_of_lt h

theorem operandReg_inRange {v : Byte} (h : v.toNat < 8) : operandReg v = ⟨v.toNat, h⟩ := Fin.ext (operandReg_val h)

/-- What the handler of a well-formed instruction makes of a state (`exec_wellFormed`). -/
def effect : Instr → State → State
  | .hlt, s => s.setStatus .halted
  | .ldi a v, s => (s.setReg (operandReg a) v).advance 3
  | .prn a, s => (s.emit (s.reg (operandReg a))).advance 2
  | .add a b, s =>
    (s.setReg (operandReg a) (byteOf ((s.reg (operandReg a)).toNat + (s.reg (operandReg b)).toNat))).advance 3
  | .mul a b, s =>
    (s.setReg (operandReg a) (byteOf ((s.reg (operandReg a)).toNat * (s.reg (operandReg b)).toNat))).advance 3
  | .cmp a b, s => (s.setFlags (compareFlags (s.reg (operandReg a)) (s.reg (operandReg b)))).advance 3
  | .push a, s => (s.decSp.setMem (s.mem.write s.decSp.sp.toNat (s.decSp.reg (operandReg a)))).advance 2
  | .pop a, s => ((s.setReg (operandReg a) (s.mem.read s.sp.toNat)).incSp).advance 2
  | .call a, s =>
    (s.decSp.setMem (s.mem.write s.decSp.sp.toNat (returnByte s))).setPc (s.decSp.reg (operandReg a)).toNat
  | .ret, s => (s.setPc (s.mem.read s.sp.toNat).toNat).incSp
  | .jmp a, s => s.setPc (s.reg (operandReg a)).toNat
  | .jeq a, s => s.setPc (if s.fl.e then (s.reg (operandReg a)).toNat else s.pc + 2)
  | .jne a, s => s.setPc (if s.fl.e then s.pc + 2 else (s.reg (operandReg a)).toNat)

theorem wellFormed_iff (i : Instr) : i.wellFormed = true ↔ ∀ v ∈ i.regOperands, v.toNat < 8 := by
  simp [Instr.wellFormed, regInRange]

/-- The handler of a well-formed instruction completes with its effect. -/
theorem exec_wellFormed {i : Instr} (h : i.wellFormed = true) (s : State) : exec i s = .next (effect i s) := by
  rw [wellFormed_iff] at h
  cases i <;> simp only [Instr.regOperands, List.forall_mem_cons, List.not_mem_nil, false_imp_iff, implies_true,
    and_true] at h
  case hlt => rfl
  case ret =>
    simp only [exec, execRet, effect, memRead_byte]
    rfl
  case ldi | prn | push | pop | call =>
    simp only [exec, execLdi, execPrn, execPush, execPop, execCall, effect, commit_regIndex_inRange h,
      operandReg_inRange h, memRead_byte, memWrite_byte]
    rfl
  case add | mul | cmp =>
    obtain ⟨ha, hb⟩ := h
    simp only [exec, execAdd, execMul, execCmp, effect, applyAlu_inRange ha hb, operandReg_inRange ha,
      operandReg_inRange hb]
    rfl
  case jmp =>
    simp only [exec, execJmp, effect, jumpWhen_inRange h, operandReg_inRange h, ↓reduceIte]
  case jeq | jne =>
    simp only [exec, execJeq, execJne, effect, jumpWhen_inRange h, operandReg_inRange h]
    cases s.fl.e <;> rfl

/-- Run on an operand out of range, a handler raises `RegisterBoundsError` of the first and does nothing else. -/
theorem exec_illFormed {i : Instr} {v : Byte} (h : i.regOperands.find? (fun u => !regInRange u) = some v)
    (s : State) : exec i s = .next (takeError (.registerBounds v) s) := by
  cases i <;> simp only [Instr.regOperands, findBad_cons, List.find?_nil, reduceCtorEq, and_false, or_false] at h
  case add | mul | cmp =>
    rcases h with ⟨ha, rfl⟩ | ⟨ha, hb, rfl⟩
    · exact applyAlu_badA ha _ _ s
    · exact applyAlu_badB ha hb _ s
  all_goals
    obtain ⟨ha, rfl⟩ := h
    exact commit_regIndex_outOfRange ha s _

/-- All a handler can do. -/
theorem exec_cases (i : Instr) (s : State) :
    (i.wellFormed = true ∧ exec i s = .next (effect i s)) ∨
      ∃ v, i.regOperands.find? (fun u => !regInRange u) = some v ∧
        exec i s = .next (takeError (.registerBounds v) s) := by
  cases hf : i.regOperands.find? (fun u => !regInRange u) with
  | none =>
    have hwf := (checkedOperands_find_none i).1 hf
    exact .inl ⟨hwf, exec_wellFormed hwf s⟩
  | some v => exact .inr ⟨v, rfl, exec_illFormed hf s⟩

/-- What a well-formed instruction's handler answers is its effect. -/
theorem eq_effect_of_exec {i : Instr} {s t : State} (hwf : i.wellFormed = true) (h : exec i s = .next t) :
    t = effect i s := by
  rw [exec_wellFormed hwf] at h
  exact (Host.Outcome.next.inj h).symm

/-- All a step to a next state can have done, by what fetch and decode answer. -/
theorem step_fetchDecode_cases {s t : State} (h : step s = .next t) :
    s.status = .running ∧
      ((∃ e, fetchDecode s = .error e ∧ t = takeError e s) ∨ ∃ i, fetchDecode s = .ok i ∧ t = effect i s) := by
  obtain ⟨hrun, herr | ⟨i, hdec, hexec⟩⟩ := step_cases h
  · exact ⟨hrun, .inl herr⟩
  · obtain ⟨-, -, hwf⟩ := fetchDecode_ok hdec
    exact ⟨hrun, .inr ⟨i, hdec, eq_effect_of_exec hwf hexec⟩⟩

/-- All a step to a next state can have done, by the bytes at `pc`. -/
theorem step_effect_cases {s t : State} (h : step s = .next t) :
    s.status = .running ∧
      ((∃ e, fetchDecode s = .error e ∧ t = takeError e s) ∨
        ∃ i, s.pc ≤ 253 ∧ encode i <+: [s.mem.read s.pc, s.mem.read (s.pc + 1), s.mem.read (s.pc + 2)] ∧
          i.wellFormed = true ∧ t = effect i s) := by
  obtain ⟨hrun, herr | ⟨i, hdec, ht⟩⟩ := step_fetchDecode_cases h
  · exact ⟨hrun, .inl herr⟩
  · obtain ⟨hpc, hl, hwf⟩ := fetchDecode_ok hdec
    exact ⟨hrun, .inr ⟨i, hpc, (lookupOpcode_eq_some_iff _ i).1 hl, hwf, ht⟩⟩

theorem step_of_fetchDecode_error {s : State} {e : CoreError} (hrun : s.status = .running)
    (h : fetchDecode s = .error e) : step s = .next (takeError e s) := by
  rw [step_running hrun, h]

theorem step_of_fetchDecode_ok {s : State} {i : Instr} (hrun : s.status = .running) (h : fetchDecode s = .ok i) :
    step s = .next (effect i s) := by
  obtain ⟨-, -, hwf⟩ := fetchDecode_ok h
  rw [step_running hrun, h]
  exact exec_wellFormed hwf s

/-- Settles O18: a running cycle ends in a taken error or in an effect, and both are next states. -/
theorem runningStepsHaveNextState : Obligations.RunningStepsHaveNextState := by
  intro s hrun
  cases hf : fetchDecode s with
  | error e => exact ⟨_, step_of_fetchDecode_error hrun hf⟩
  | ok i => exact ⟨_, step_of_fetchDecode_ok hrun hf⟩

end Sys2Proof.Machine

/-! ## What a handler leaves unchanged, field by field -/

namespace Sys2Proof.Machine

@[simp] theorem State.reg_setPc (s : State) (n : Nat) (k : Fin 8) : (s.setPc n).reg k = s.reg k := rfl
@[simp] theorem State.reg_advance (s : State) (n : Nat) (k : Fin 8) : (s.advance n).reg k = s.reg k := rfl
@[simp] theorem State.reg_setMem (s : State) (m : Memory) (k : Fin 8) : (s.setMem m).reg k = s.reg k := rfl

@[simp] theorem State.reg_decSp (s : State) (k : Fin 8) : s.decSp.reg k = if 7 = k then s.sp - 1 else s.reg k :=
  s.reg_setReg 7 k _

@[simp] theorem State.reg_incSp (s : State) (k : Fin 8) : s.incSp.reg k = if 7 = k then s.sp + 1 else s.reg k :=
  s.reg_setReg 7 k _

/-- The register file written out, at the register an operand names. -/
theorem State.reg_operandReg (s : State) {v : Byte} (h : v.toNat < 8) : s.reg (operandReg v) = s.regs[v.toNat] := by
  rw [operandReg_inRange h]
  rfl

theorem State.regs_ext {s t : State} (h : ∀ k, s.reg k = t.reg k) : s.regs = t.regs :=
  Vector.ext fun k hk => h ⟨k, hk⟩

/-- The registers an instruction writes: its destination, and the stack pointer. -/
def destinations : Instr → List (Fin 8)
  | .ldi a _ => [operandReg a]
  | .add a _ => [operandReg a]
  | .mul a _ => [operandReg a]
  | .pop a => [operandReg a, 7]
  | .push _ => [7]
  | .call _ => [7]
  | .ret => [7]
  | .hlt => []
  | .prn _ => []
  | .cmp _ _ => []
  | .jmp _ => []
  | .jeq _ => []
  | .jne _ => []

/-- A handler writes no register but its destinations. -/
theorem effect_reg_of_notMem {i : Instr} {k : Fin 8} (h : k ∉ destinations i) (s : State) :
    (effect i s).reg k = s.reg k := by
  cases i <;> simp only [destinations, List.mem_cons, List.not_mem_nil, or_false, not_or] at h
  case ldi | add | mul | push | call | ret => simp [effect, Ne.symm h]
  case pop => simp [effect, Ne.symm h.1, Ne.symm h.2]
  all_goals rfl

theorem effect_status (i : Instr) (s : State) :
    (effect i s).status = if i = .hlt then .halted else s.status := by
  cases i <;> rfl

/-- A comparison leaves exactly one flag set (R19, R72). -/
theorem compareFlags_exclusive (p q : Byte) :
    compareFlags p q ∈ [⟨true, false, false⟩, ⟨false, true, false⟩, ⟨false, false, true⟩] := by
  unfold compareFlags
  split
  · simp
  · split <;> simp

/-- Only CMP writes the flags. -/
theorem effect_fl_cases (i : Instr) (s : State) :
    (effect i s).fl = s.fl ∨ ∃ a b, i = .cmp a b ∧
      (effect i s).fl ∈ [⟨true, false, false⟩, ⟨false, true, false⟩, ⟨false, false, true⟩] := by
  cases i
  case cmp a b => exact .inr ⟨a, b, rfl, compareFlags_exclusive _ _⟩
  all_goals exact .inl rfl

/-- Only PRN writes the output. -/
theorem effect_out_cases (i : Instr) (s : State) :
    (effect i s).out = s.out ∨ ∃ a, i = .prn a ∧ (effect i s).out = s.out ++ [s.reg (operandReg a)] := by
  cases i
  case prn a => exact .inr ⟨a, rfl, rfl⟩
  all_goals exact .inl rfl

/-- Only PUSH and CALL write memory, one byte at the decremented SP. -/
theorem effect_mem_cases (i : Instr) (s : State) :
    (effect i s).mem = s.mem ∨ ((∃ a, i = .push a) ∨ ∃ a, i = .call a) ∧
      ∃ v, (effect i s).mem = s.mem.write s.decSp.sp.toNat v := by
  cases i
  case push a => exact .inr ⟨.inl ⟨a, rfl⟩, _, rfl⟩
  case call a => exact .inr ⟨.inr ⟨a, rfl⟩, _, rfl⟩
  all_goals exact .inl rfl

/-- A byte other than the one at the decremented SP is kept by every handler. -/
theorem effect_read_of_ne (i : Instr) {s : State} {p : Nat} (h : p ≠ s.decSp.sp.toNat) :
    (effect i s).mem.read p = s.mem.read p := by
  rcases effect_mem_cases i s with hm | ⟨-, v, hm⟩
  · rw [hm]
  · rw [hm, Memory.read_write_ne _ _ h]

theorem effect_mem_wf (i : Instr) {s : State} (h : s.mem.wf = true) : (effect i s).mem.wf = true := by
  rcases effect_mem_cases i s with hm | ⟨-, v, hm⟩
  · rwa [hm]
  · rw [hm]
    exact Memory.write_wf h v (BitVec.isLt _)

/-- From a fetchable address no handler takes the pc past 256 (R17). -/
theorem effect_pc_le (i : Instr) {s : State} (h : s.pc ≤ 253) : (effect i s).pc ≤ 256 := by
  have target (v : Byte) : v.toNat ≤ 256 := v.isLt.le
  cases i
  case hlt => exact h.trans (by omega)
  case ldi | prn | add | mul | cmp | push | pop =>
    simp only [effect, State.advance_pc, State.setReg_pc, State.emit_pc, State.setFlags_pc, State.setMem_pc,
      State.decSp_pc, State.incSp_pc]
    omega
  case call | ret | jmp => exact target _
  case jeq a | jne a =>
    have htaken := target (s.reg (operandReg a))
    simp only [effect, State.setPc_pc]
    split <;> omega

end Sys2Proof.Machine

/-! ## The invariant, and how a run can end -/

namespace Sys2Proof.Machine

theorem statusOk_of_running {s : State} (h : s.status = .running) : s.StatusOk := by
  rw [State.StatusOk, h]
  trivial

/-- Settles O2, by evaluating the empty machine's fields. -/
theorem invariantAtReset : Obligations.InvariantAtReset := ⟨by decide, by decide, by decide, trivial⟩

/-- The record of a fetch or decode error agrees with the bytes and the pc that caused it (R84, R89). -/
theorem takeError_statusOk {s : State} {e : CoreError} (hpc : s.pc ≤ 256) (h : fetchDecode s = .error e) :
    (takeError e s).StatusOk := by
  rw [State.StatusOk, takeError_status]
  refine ⟨rfl, ?_⟩
  rcases fetchDecode_error h with ⟨htop, rfl⟩ | ⟨hlow, hnone, rfl⟩ | ⟨hlow, i, v, hl, hv, h8, rfl⟩
  · exact .inr (.inl ⟨rfl, Nat.max_eq_left hpc, .inl htop⟩)
  · exact .inl ⟨rfl, hlow, rfl, (lookupOpcode_eq_none_iff _).1 hnone⟩
  · have henc := (lookupOpcode_eq_some_iff _ i).1 hl
    have hbyte : v ∈ [s.mem.read (s.pc + 1), s.mem.read (s.pc + 2)] := (regOperands_isPrefix henc).subset hv
    simp only [List.mem_cons, List.not_mem_nil, or_false] at hbyte
    exact .inr (.inr ⟨rfl, hlow, encode_head_defined henc, h8,
      hbyte.imp (congrArg BitVec.toNat) (congrArg BitVec.toNat)⟩)

theorem takeError_inv {s : State} {e : CoreError} (hinv : s.Inv) (h : fetchDecode s = .error e) :
    (takeError e s).Inv :=
  ⟨hinv.memWf, hinv.pcBound, hinv.flagsExclusive, takeError_statusOk hinv.pcBound h⟩

theorem effect_statusOk {i : Instr} {s : State} (hrun : s.status = .running) (hpc : s.pc ≤ 253)
    (henc : encode i <+: [s.mem.read s.pc, s.mem.read (s.pc + 1), s.mem.read (s.pc + 2)]) :
    (effect i s).StatusOk := by
  by_cases hhlt : i = .hlt
  · subst hhlt
    exact ⟨hpc, (List.cons_prefix_cons.1 henc).1.symm⟩
  · exact statusOk_of_running (by rw [effect_status, if_neg hhlt, hrun])

theorem effect_flagsExclusive (i : Instr) {s : State} (hinv : s.Inv) :
    (effect i s).fl ∈ [Flags.clear, ⟨true, false, false⟩, ⟨false, true, false⟩, ⟨false, false, true⟩] := by
  rcases effect_fl_cases i s with hfl | ⟨a, b, -, hfl⟩
  · rw [hfl]
    exact hinv.flagsExclusive
  · exact List.mem_cons_of_mem _ hfl

/-- Settles O6: a step takes a fetch or decode error, or commits the effect of the instruction at `pc`; each keeps
the four parts of the invariant. -/
theorem stepKeepsInvariant : Obligations.StepKeepsInvariant := by
  intro s t hinv hstep
  obtain ⟨hrun, ⟨e, herr, rfl⟩ | ⟨i, hpc, henc, -, rfl⟩⟩ := step_effect_cases hstep
  · exact takeError_inv hinv herr
  · exact ⟨effect_mem_wf i hinv.memWf, effect_pc_le i hpc, effect_flagsExclusive i hinv,
      effect_statusOk hrun hpc henc⟩

/-- What every step keeps, every run keeps. -/
theorem hostRun_induction {P : State → Prop} (hkeep : ∀ s t, P s → step s = .next t → P t) {s : State} (h : P s)
    (n : Nat) : P (hostRun n s) := by
  induction n generalizing s with
  | zero => exact h
  | succ n ih =>
    rw [hostRun_succ]
    refine ih ?_
    unfold hostStep
    cases hstep : step s with
    | next t => exact hkeep s t h hstep
    | fault r => exact h
    | refused r => exact h

/-- A step to a faulted state took a fetch or decode error: no handler that a step runs raises one. -/
theorem step_to_faulted {s t : State} {f : FaultRecord} (h : step s = .next t) (hf : t.status = .faulted f) :
    ∃ e, fetchDecode s = .error e ∧ t = takeError e s ∧ f = { cls := e.cls, value := e.value, pc := s.pc } := by
  obtain ⟨hrun, ⟨e, herr, rfl⟩ | ⟨i, -, -, -, rfl⟩⟩ := step_effect_cases h
  · exact ⟨e, herr, rfl, (Status.faulted.inj hf).symm⟩
  · rw [effect_status, hrun] at hf
    split at hf <;> cases hf

theorem hostRun_faulted {s : State} {f : FaultRecord} (h : s.status = .faulted f) (n : Nat) : hostRun n s = s :=
  hostRun_final (by simp [h]) n

/-- Settles O19: the state after the error is the start state with the record, and no cycle runs in it. -/
theorem faultingCycleCommitsNothing : Obligations.FaultingCycleCommitsNothing := by
  intro s t f hstep hf
  have hfinal := And.intro (step_faulted hf) (hostRun_faulted hf)
  obtain ⟨e, -, rfl, rfl⟩ := step_to_faulted hstep hf
  exact ⟨rfl, rfl, hfinal⟩

theorem memRead_error_iff (a : Nat) (s : State) : memRead a s = .error (.memoryBounds a) ↔ 256 ≤ a := by
  refine ⟨fun h => ?_, fun h => memRead_outOfRange h s⟩
  by_contra hlt
  rw [memRead_inRange (by omega)] at h
  cases h

/-- Settles O20: of the fetch and decode errors only the fetch's is a `MemoryBoundsError`, and a handler faults with
`RegisterBoundsError` alone. -/
theorem memoryBoundsOnlyFromFetch : Obligations.MemoryBoundsOnlyFromFetch := by
  refine ⟨memRead_error_iff, fun s t f hpc hstep hf hcls => ?_, fun i s t f hrun hexec hf hcls => ?_⟩
  · obtain ⟨e, herr, -, rfl⟩ := step_to_faulted hstep hf
    rcases fetchDecode_error herr with ⟨htop, rfl⟩ | ⟨-, -, rfl⟩ | ⟨-, i, v, -, -, -, rfl⟩
    · exact ⟨htop, Nat.max_eq_left hpc, hostRun_faulted hf⟩
    · cases hcls
    · cases hcls
  · rcases exec_cases i s with ⟨-, h⟩ | ⟨v, -, h⟩ <;> obtain rfl := Host.Outcome.next.inj (h.symm.trans hexec)
    · rw [effect_status, hrun] at hf
      split at hf <;> cases hf
    · cases hf
      cases hcls

/-- Settles O22: fetch and decode raise three classes, and these are not among them. -/
theorem noStepRaisesUnsupportedAlu : Obligations.NoStepRaisesUnsupportedAlu := by
  intro s t f hstep hf
  obtain ⟨e, herr, -, rfl⟩ := step_to_faulted hstep hf
  rcases fetchDecode_error herr with ⟨-, rfl⟩ | ⟨-, -, rfl⟩ | ⟨-, i, v, -, -, -, rfl⟩ <;>
    exact ⟨ErrorClass.noConfusion, ErrorClass.noConfusion⟩

/-- Settles O23: only HLT's effect touches the status. -/
theorem handlersRaiseNothing : Obligations.HandlersRaiseNothing := by
  intro i s t hwf hexec
  rw [eq_effect_of_exec hwf hexec, effect_status]
  by_cases hhlt : i = .hlt
  · exact .inr ⟨hhlt, if_pos hhlt⟩
  · exact .inl (if_neg hhlt)

/-- Settles O24: a step that halts ran a HLT, whose effect is the status alone. -/
theorem hltIsTheOnlyStop : Obligations.HltIsTheOnlyStop := by
  refine ⟨fun s t hstep hhalted => ?_, fun s hhalted => ?_⟩
  · obtain ⟨hrun, ⟨e, -, rfl⟩ | ⟨i, -, henc, -, rfl⟩⟩ := step_effect_cases hstep
    · cases hhalted
    · rw [effect_status, hrun] at hhalted
      split at hhalted
      · subst i
        exact ⟨(List.cons_prefix_cons.1 henc).1.symm, rfl⟩
      · cases hhalted
  · have hfinal : s.status ≠ .running := by simp [hhalted]
    exact ⟨hostRun_final hfinal, step_final_ne_next hfinal⟩

end Sys2Proof.Machine

/-! ## Rules of the whole machine: which instruction changes which part of the state -/

namespace Sys2Proof.Machine

/-- A step changes a part of the state only through an instruction that changes it: taking an error keeps all but
the status. -/
theorem step_part_cases {α : Type} {s t : State} (part : State → α) (hkeep : ∀ e, part (takeError e s) = part s)
    (h : step s = .next t) (hne : part t ≠ part s) :
    ∃ i, encode i <+: [s.mem.read s.pc, s.mem.read (s.pc + 1), s.mem.read (s.pc + 2)] ∧ i.wellFormed = true ∧
      t = effect i s := by
  obtain ⟨-, ⟨e, -, rfl⟩ | ⟨i, -, hi⟩⟩ := step_effect_cases h
  · exact absurd (hkeep e) hne
  · exact ⟨i, hi⟩

/-- Settles O44: of the parts of the state a step can change, the flags are CMP's. -/
theorem flagsOnlyByCmp : Obligations.FlagsOnlyByCmp := by
  refine fun s t hstep => or_iff_not_imp_left.2 fun hne => ?_
  obtain ⟨i, henc, -, rfl⟩ := step_part_cases State.fl (takeError_fl · s) hstep hne
  obtain ⟨a, b, rfl, hfl⟩ := (effect_fl_cases i s).resolve_left hne
  exact ⟨(List.cons_prefix_cons.1 henc).1.symm, hfl⟩

/-- Settles O45: the output is PRN's, and the operand byte names its register. -/
theorem outputOnlyByPrn : Obligations.OutputOnlyByPrn := by
  refine fun s t hstep => or_iff_not_imp_left.2 fun hne => ?_
  obtain ⟨i, henc, hwf, rfl⟩ := step_part_cases State.out (takeError_out · s) hstep hne
  obtain ⟨a, rfl, hout⟩ := (effect_out_cases i s).resolve_left hne
  have ha : a.toNat < 8 := (wellFormed_iff _).1 hwf a (by simp [Instr.regOperands])
  rw [s.reg_operandReg ha] at hout
  simp only [encode, List.cons_prefix_cons, List.nil_prefix, and_true] at henc
  obtain ⟨hop, rfl⟩ := henc
  exact ⟨hop.symm, ha, hout⟩

/-- Settles O46: memory is PUSH's and CALL's, and both write at the decremented SP. -/
theorem memoryOnlyByPushAndCall : Obligations.MemoryOnlyByPushAndCall := by
  intro s t p hstep hne
  obtain ⟨i, henc, -, rfl⟩ := step_part_cases (fun u => u.mem.read p) (fun _ => rfl) hstep hne
  have hp : p = s.decSp.sp.toNat := by
    by_contra hother
    exact hne (effect_read_of_ne i hother)
  refine ⟨?_, hp⟩
  have hmem : (effect i s).mem ≠ s.mem := fun hsame => hne (by rw [hsame])
  obtain ⟨⟨a, rfl⟩ | ⟨a, rfl⟩, -⟩ := (effect_mem_cases i s).resolve_left hmem
  · exact .inl (List.cons_prefix_cons.1 henc).1.symm
  · exact .inr (List.cons_prefix_cons.1 henc).1.symm

/-- The opcodes of the rows that write a register, and the register each writes. -/
theorem destinations_cases {i : Instr} {op a b : Byte} {k : Fin 8} (henc : encode i <+: [op, a, b])
    (hwf : i.wellFormed = true) (hk : k ∈ destinations i) :
    (op ∈ [0x82, 0xA0, 0xA2, 0x46] ∧ a.toNat = k.val) ∨ (op ∈ [0x45, 0x46, 0x50, 0x11] ∧ k = 7) := by
  rw [wellFormed_iff] at hwf
  cases i <;> simp only [destinations, List.mem_cons, List.not_mem_nil, or_false] at hk <;>
    simp only [encode, List.cons_prefix_cons, List.nil_prefix, and_true] at henc
  case ldi | add | mul =>
    obtain ⟨rfl, rfl, -⟩ := henc
    subst hk
    exact .inl ⟨by decide, (operandReg_val (hwf _ (by simp [Instr.regOperands]))).symm⟩
  case pop =>
    obtain ⟨rfl, rfl⟩ := henc
    rcases hk with rfl | rfl
    · exact .inl ⟨by decide, (operandReg_val (hwf _ (by simp [Instr.regOperands]))).symm⟩
    · exact .inr ⟨by decide, rfl⟩
  case push | call =>
    obtain ⟨rfl, -⟩ := henc
    exact .inr ⟨by decide, hk⟩
  case ret =>
    subst henc
    exact .inr ⟨by decide, hk⟩

/-- Settles O47: the register changed is a destination of the instruction at `pc`. -/
theorem registersOnlyByDestination : Obligations.RegistersOnlyByDestination := by
  intro s t r h hstep hne
  obtain ⟨i, henc, hwf, rfl⟩ := step_part_cases (fun u => u.regs[r]) (fun _ => rfl) hstep hne
  have hk : (⟨r, h⟩ : Fin 8) ∈ destinations i := by
    by_contra hnot
    exact hne (effect_reg_of_notMem hnot s)
  simpa [Fin.ext_iff] using destinations_cases henc hwf hk

end Sys2Proof.Machine

/-! ## Frames -/

namespace Sys2Proof.Machine

theorem effect_regs_of_notMem {i : Instr} {r : Nat} {h : r < 8} (hr : (⟨r, h⟩ : Fin 8) ∉ destinations i) (s : State) :
    (effect i s).regs[r] = s.regs[r] := effect_reg_of_notMem hr s

/-- Settles O39: `operand_a`'s register is their one destination, and their effects update no other part. -/
theorem ldiAddMulFrame : Obligations.LdiAddMulFrame := by
  intro i a b s t hi hwf hexec
  obtain rfl := eq_effect_of_exec hwf hexec
  rw [wellFormed_iff] at hwf
  simp only [List.mem_cons, List.not_mem_nil, or_false] at hi
  rcases hi with rfl | rfl | rfl
  all_goals
    have ha : a.toNat < 8 := hwf a (by simp [Instr.regOperands])
    refine ⟨fun r h hr => effect_regs_of_notMem ?_ s, rfl, rfl, rfl, fun _ => rfl⟩
    simpa [destinations, Fin.ext_iff, operandReg_val ha] using hr

/-- Settles O40: their effects update no register and no memory. -/
theorem hltPrnCmpFrame : Obligations.HltPrnCmpFrame := by
  intro i a b s t hi hwf hexec
  obtain rfl := eq_effect_of_exec hwf hexec
  simp only [List.mem_cons, List.not_mem_nil, or_false] at hi
  rcases hi with rfl | rfl | rfl
  · exact ⟨fun _ _ => rfl, fun _ => rfl, fun _ => rfl, fun hne => absurd rfl hne, fun _ => rfl, nofun⟩
  · exact ⟨fun _ _ => rfl, fun _ => rfl, fun _ => rfl, fun _ => rfl, fun hne => absurd rfl hne, fun _ => ⟨_, rfl⟩⟩
  · exact ⟨fun _ _ => rfl, fun _ => rfl, fun hne => absurd rfl hne, fun _ => rfl, fun _ => rfl, nofun⟩

/-- Settles O41: `x[7]` is their one destination, and their store is at the decremented SP. -/
theorem pushCallFrame : Obligations.PushCallFrame := by
  intro i a s t hi hwf hexec
  obtain rfl := eq_effect_of_exec hwf hexec
  refine ⟨fun r h hr => effect_regs_of_notMem ?_ s, ?_⟩
  · simp only [List.mem_cons, List.not_mem_nil, or_false] at hi
    rcases hi with rfl | rfl <;> simpa [destinations, Fin.ext_iff] using hr
  · have hmem : ∀ p, s.decSp.sp.toNat = p → ∀ q, q ≠ p → (effect i s).mem.read q = s.mem.read q := by
      rintro p rfl q hq
      exact effect_read_of_ne i hq
    simp only [List.mem_cons, List.not_mem_nil, or_false] at hi
    rcases hi with rfl | rfl <;> exact ⟨rfl, rfl, rfl, hmem⟩

/-- Settles O42: POP's destination and `x[7]` are what they write, and memory they only read. -/
theorem popRetFrame : Obligations.PopRetFrame := by
  intro i a s t hi hwf hexec
  obtain rfl := eq_effect_of_exec hwf hexec
  rw [wellFormed_iff] at hwf
  simp only [List.mem_cons, List.not_mem_nil, or_false] at hi
  rcases hi with rfl | rfl
  · have ha : a.toNat < 8 := hwf a (by simp [Instr.regOperands])
    refine ⟨fun r h h7 hr => effect_regs_of_notMem ?_ s, rfl, rfl, rfl, fun _ => rfl⟩
    simpa [destinations, Fin.ext_iff, operandReg_val ha, h7] using hr rfl
  · refine ⟨fun r h h7 _ => effect_regs_of_notMem ?_ s, rfl, rfl, rfl, fun _ => rfl⟩
    simpa [destinations, Fin.ext_iff] using h7

/-- Settles O43: their effects set the pc alone. -/
theorem jumpFrame : Obligations.JumpFrame := by
  intro i a s t hi hwf hexec
  obtain rfl := eq_effect_of_exec hwf hexec
  simp only [List.mem_cons, List.not_mem_nil, or_false] at hi
  rcases hi with rfl | rfl | rfl <;> exact ⟨fun _ _ => rfl, rfl, rfl, rfl, fun _ => rfl⟩

/-- Settles O48: the effect's advance and the encoding's length agree row by row. -/
theorem sequentialAdvance : Obligations.SequentialAdvance := by
  intro i a b s t hi hwf hexec
  obtain rfl := eq_effect_of_exec hwf hexec
  simp only [List.mem_cons, List.not_mem_nil, or_false] at hi
  rcases hi with rfl | rfl | rfl | rfl | rfl | rfl | rfl <;> rfl

end Sys2Proof.Machine

/-! ## What each instruction does, with its errors and its fetch -/

namespace Sys2Proof.Machine

/-- A cycle that fetches an instruction's encoding is its handler, a bad register operand included: the decoder and
the handler check the same operands and raise the same error (log 13). -/
theorem State.Fetches.step_eq_exec {s : State} {w : Fetched} {i : Instr} (h : s.Fetches w)
    (henc : encode i <+: [w.opcode, w.operandA, w.operandB]) : step s = exec i s := by
  have hl := (lookupOpcode_eq_some_iff w i).2 henc
  rcases exec_cases i s with ⟨hwf, -⟩ | ⟨v, hf, hexec⟩
  · exact h.step_of_decode_ok ((decode_ok_iff w i).2 ⟨hl, hwf⟩)
  · rw [hexec, h.step_of_bad_register hl hf]
    rfl

/-- The handler of an instruction whose one register operand is in range. -/
theorem exec_regA {i : Instr} {a : Byte} (hi : i.regOperands = [a]) (ha : a.toNat < 8) (s : State) :
    exec i s = .next (effect i s) :=
  exec_wellFormed ((wellFormed_iff i).2 (by simpa [hi] using ha)) s

/-- The handler of an instruction whose two register operands are in range. -/
theorem exec_regAB {i : Instr} {a b : Byte} (hi : i.regOperands = [a, b]) (ha : a.toNat < 8) (hb : b.toNat < 8)
    (s : State) : exec i s = .next (effect i s) :=
  exec_wellFormed ((wellFormed_iff i).2 (by simpa [hi] using ⟨ha, hb⟩)) s

/-- A first register operand out of range is what the handler faults with. -/
theorem exec_badA {i : Instr} {a : Byte} {rest : List Byte} (hi : i.regOperands = a :: rest) (ha : 8 ≤ a.toNat)
    (s : State) : exec i s = .next (s.faultedWith .registerBoundsError a.toNat) :=
  exec_illFormed (by rw [hi, findBad_cons]; exact .inl ⟨ha, rfl⟩) s

/-- A second register operand out of range is what the handler faults with after a first in range. -/
theorem exec_badB {i : Instr} {a b : Byte} (hi : i.regOperands = [a, b]) (ha : a.toNat < 8) (hb : 8 ≤ b.toNat)
    (s : State) : exec i s = .next (s.faultedWith .registerBoundsError b.toNat) :=
  exec_illFormed (by rw [hi, findBad_cons, findBad_cons]; exact .inr ⟨ha, .inl ⟨hb, rfl⟩⟩) s

/-- Reducing modulo 256 before or after the cut to eight bits is the same. -/
theorem byteOf_eq_ofNat_mod (n : Nat) : byteOf n = BitVec.ofNat 8 (n % 256) :=
  BitVec.eq_of_toNat_eq (by simp [byteOf])

/-- Settles O26: HLT has no operand to check, and operand bytes of any value follow its encoding. -/
theorem hltResult : Obligations.HltResult := fun _ x y => ⟨rfl, fun h => h.step_eq_exec ⟨[x, y], rfl⟩⟩

/-- Settles O27: the operand's check, the effect, and the fetch, each by its own lemma. -/
theorem ldiResult : Obligations.LdiResult := by
  refine fun s a v => ⟨fun ha => ?_, fun ha => exec_badA rfl ha s, fun h => h.step_eq_exec ⟨[], rfl⟩, topFaults s⟩
  rw [exec_regA rfl ha, effect, operandReg_inRange ha]
  rfl

/-- Settles O28: as for LDI; the byte emitted is the register's. -/
theorem prnResult : Obligations.PrnResult := by
  refine fun s a x => ⟨fun ha => ?_, fun ha => exec_badA rfl ha s, fun h => h.step_eq_exec ⟨[x], rfl⟩⟩
  rw [exec_regA rfl ha, effect, operandReg_inRange ha]
  rfl

/-- Settles O29: `operand_a` is checked first, and the sum is cut to eight bits. -/
theorem addResult : Obligations.AddResult := by
  refine fun s a b => ⟨fun ha hb => ?_, fun ha => exec_badA rfl ha s, fun ha hb => exec_badB rfl ha hb s,
    fun h => h.step_eq_exec ⟨[], rfl⟩, topFaults s⟩
  rw [exec_regAB rfl ha hb, effect, byteOf_eq_ofNat_mod, operandReg_inRange ha, operandReg_inRange hb]
  rfl

/-- Settles O30: `operand_a` is checked first, and the product is cut to eight bits. -/
theorem mulResult : Obligations.MulResult := by
  refine fun s a b => ⟨fun ha hb => ?_, fun ha => exec_badA rfl ha s, fun ha hb => exec_badB rfl ha hb s,
    fun h => h.step_eq_exec ⟨[], rfl⟩, topFaults s⟩
  rw [exec_regAB rfl ha hb, effect, byteOf_eq_ofNat_mod, operandReg_inRange ha, operandReg_inRange hb]
  rfl

theorem compareFlags_equal {p q : Byte} (h : p = q) : compareFlags p q = ⟨true, false, false⟩ := by
  simp [compareFlags, h]

theorem compareFlags_greater {p q : Byte} (h : p.toNat > q.toNat) : compareFlags p q = ⟨false, true, false⟩ := by
  rw [compareFlags, if_neg (Nat.ne_of_gt h), if_pos h]

theorem compareFlags_less {p q : Byte} (h : p.toNat < q.toNat) : compareFlags p q = ⟨false, false, true⟩ := by
  rw [compareFlags, if_neg (Nat.ne_of_lt h), if_neg (Nat.not_lt_of_lt h)]

/-- CMP with both operands in range, whatever the comparison gives. -/
theorem exec_cmp {a b : Byte} (ha : a.toNat < 8) (hb : b.toNat < 8) (s : State) :
    exec (.cmp a b) s =
      .next { s with fl := compareFlags s.regs[a.toNat] s.regs[b.toNat], pc := s.pc + 3 } := by
  rw [exec_regAB rfl ha hb, effect, operandReg_inRange ha, operandReg_inRange hb]
  rfl

/-- Settles O31: the three clauses are the three outcomes of the comparison. -/
theorem cmpResult : Obligations.CmpResult := by
  refine fun s a b => ⟨fun ha hb => ?_, fun ha => exec_badA rfl ha s, fun ha hb => exec_badB rfl ha hb s,
    fun h => h.step_eq_exec ⟨[], rfl⟩, topFaults s⟩
  rw [exec_cmp ha hb]
  exact ⟨fun h => by rw [compareFlags_equal h], fun h => by rw [compareFlags_greater h],
    fun h => by rw [compareFlags_less h]⟩

/-- Settles O32: the byte stored is a register's after the decrement. -/
theorem pushResult : Obligations.PushResult := by
  refine fun s a x => ⟨fun ha => ?_, fun ha => exec_badA rfl ha s, fun h => h.step_eq_exec ⟨[x], rfl⟩⟩
  rw [exec_regA rfl ha, effect, State.sp_decSp, operandReg_inRange ha]
  rfl

theorem State.sp_eq_reg (s : State) : s.sp = s.reg 7 := rfl

@[simp] theorem State.sp_setPc (s : State) (n : Nat) : (s.setPc n).sp = s.sp := rfl
@[simp] theorem State.sp_advance (s : State) (n : Nat) : (s.advance n).sp = s.sp := rfl
@[simp] theorem State.sp_setMem (s : State) (m : Memory) : (s.setMem m).sp = s.sp := rfl

@[simp] theorem State.sp_setReg (s : State) (r : Fin 8) (v : Byte) :
    (s.setReg r v).sp = if r = 7 then v else s.sp := s.reg_setReg r 7 v

theorem State.setSp_setReg (s : State) (v w : Byte) : (s.setReg 7 v).setSp w = s.setSp w := by
  simp [State.setSp, State.setReg, Config.spIndex]

/-- Settles O33: the increment after the load reads SP, which POP R7 has just overwritten. -/
theorem popResult : Obligations.PopResult := by
  refine fun s a x => ⟨fun ha h7 => ?_, ?_, fun ha => exec_badA rfl ha s, fun h => h.step_eq_exec ⟨[x], rfl⟩⟩
  · have hd : (⟨a.toNat, ha⟩ : Fin 8) ≠ 7 := fun heq => h7 (congrArg Fin.val heq)
    rw [exec_regA rfl ha, effect, operandReg_inRange ha, State.incSp, State.sp_setReg, if_neg hd]
    rfl
  · have hd : operandReg 7 = 7 := rfl
    rw [exec_regA (a := 7) rfl (by decide), effect, State.incSp, State.sp_setReg, hd, if_pos rfl, State.setSp_setReg]
    rfl

/-- Settles O34: the target is read after the decrement, and `pc + 2` fits a byte wherever a fetch succeeds. -/
theorem callResult : Obligations.CallResult := by
  refine fun s a x => ⟨fun ha => ?_, fun hpc => ?_, fun ha => exec_badA rfl ha s, fun h => h.step_eq_exec ⟨[x], rfl⟩⟩
  · rw [exec_regA rfl ha, effect, State.sp_decSp, operandReg_inRange ha]
    rfl
  · exact (BitVec.toNat_ofNat _ _).trans (Nat.mod_eq_of_lt (by omega))

/-- Settles O35: RET has no operand to check, and its pop is always in range. -/
theorem retResult : Obligations.RetResult := fun _ x y => ⟨exec_wellFormed rfl _, fun h => h.step_eq_exec ⟨[x, y], rfl⟩⟩

/-- Settles O36: the effect sets the pc alone, so a jump to its own address sets nothing. -/
theorem jmpResult : Obligations.JmpResult := by
  refine fun s a x => ⟨fun ha => ?_, fun ha => exec_badA rfl ha s, fun h => h.step_eq_exec ⟨[x], rfl⟩, topFaults s⟩
  have hjump : exec (.jmp a) s = .next { s with pc := s.regs[a.toNat].toNat } := by
    rw [exec_regA rfl ha, effect, operandReg_inRange ha]
    rfl
  exact ⟨hjump, fun hself => by rw [hjump, hself]⟩

/-- Settles O37: the operand's check comes before the branch on E. -/
theorem jeqResult : Obligations.JeqResult := by
  refine fun s a x => ⟨fun ha => ?_, fun ha => exec_badA rfl ha s, fun h => h.step_eq_exec ⟨[x], rfl⟩⟩
  rw [exec_regA rfl ha, effect, State.reg_operandReg s ha]
  exact ⟨fun he => by rw [he]; rfl, fun he => by rw [he]; rfl⟩

/-- Settles O38: the operand's check comes before the branch on E. -/
theorem jneResult : Obligations.JneResult := by
  refine fun s a x => ⟨fun ha => ?_, fun ha => exec_badA rfl ha s, fun h => h.step_eq_exec ⟨[x], rfl⟩⟩
  rw [exec_regA rfl ha, effect, State.reg_operandReg s ha]
  exact ⟨fun he => by rw [he]; rfl, fun he => by rw [he]; rfl⟩

/-- Settles O21: the ALU's own error, after both operands passed their check. -/
theorem aluUnsupportedTagFaults : Obligations.AluUnsupportedTagFaults := by
  intro tag a b s ha hb
  rw [applyAlu_inRange ha hb]
  rfl

end Sys2Proof.Machine

/-! ## Instructions in sequence -/

namespace Sys2Proof.Machine

theorem effect_push_sp (a : Byte) (s : State) : (effect (.push a) s).sp = s.sp - 1 := State.sp_decSp s

theorem effect_call_sp (a : Byte) (s : State) : (effect (.call a) s).sp = s.sp - 1 := State.sp_decSp s

/-- PUSH leaves its register's byte, read after the decrement, at the new SP. -/
theorem effect_push_top {s : State} (h : s.mem.wf = true) (a : Byte) :
    (effect (.push a) s).mem.read (effect (.push a) s).sp.toNat = s.decSp.reg (operandReg a) :=
  Memory.read_write_same h _ _

/-- CALL leaves its return byte at the new SP. -/
theorem effect_call_top {s : State} (h : s.mem.wf = true) (a : Byte) :
    (effect (.call a) s).mem.read (effect (.call a) s).sp.toNat = returnByte s :=
  Memory.read_write_same h _ _

/-- POP's registers: SP one past the value the load left it, then the destination, then the others. -/
theorem effect_pop_reg (a : Byte) (s : State) (k : Fin 8) :
    (effect (.pop a) s).reg k =
      if 7 = k then (if operandReg a = 7 then s.mem.read s.sp.toNat else s.sp) + 1
      else if operandReg a = k then s.mem.read s.sp.toNat else s.reg k := by
  simp [effect]

theorem effect_ret_reg (s : State) (k : Fin 8) :
    (effect .ret s).reg k = if 7 = k then s.sp + 1 else s.reg k := by
  simp [effect]

/-- Settles O49: POP loads the byte PUSH left on top, and the two moves of SP cancel. For R7 that byte is the new SP,
which POP increments back. -/
theorem pushThenPopRestores : Obligations.PushThenPopRestores := by
  intro s a hmem ha
  refine ⟨effect (.push a) s, _, exec_regA rfl ha s, exec_regA rfl ha _, effect_push_sp a s, ?_, rfl⟩
  refine State.regs_ext fun k => ?_
  rw [effect_pop_reg, effect_push_top hmem, effect_push_sp, State.reg_decSp]
  have hkept (h : 7 ≠ k) : (effect (.push a) s).reg k = s.reg k :=
    effect_reg_of_notMem (by simpa [destinations] using h.symm) s
  by_cases h7 : 7 = k
  · subst h7
    by_cases hd : operandReg a = 7
    · simp [hd, State.sp_eq_reg]
    · simp [hd, State.sp_eq_reg]
  · by_cases hd : operandReg a = k
    · simp [h7, hd]
    · simp [h7, hd, hkept h7]

theorem returnByte_toNat {s : State} (h : s.pc ≤ 253) : (returnByte s).toNat = s.pc + 2 :=
  (BitVec.toNat_ofNat _ _).trans (Nat.mod_eq_of_lt (by omega))

/-- Settles O50: RET pops the return byte CALL left on top, and the two moves of SP cancel. -/
theorem callThenRetReturns : Obligations.CallThenRetReturns := by
  intro s a hmem hpc ha
  refine ⟨effect (.call a) s, effect .ret (effect (.call a) s), exec_regA rfl ha s, exec_wellFormed rfl _, ?_, ?_⟩
  · exact (congrArg BitVec.toNat (effect_call_top hmem a)).trans (returnByte_toNat hpc)
  · refine State.regs_ext fun k => ?_
    rw [effect_ret_reg, effect_call_sp]
    by_cases h7 : 7 = k
    · simp [← h7, State.sp_eq_reg]
    · rw [if_neg h7]
      exact effect_reg_of_notMem (by simpa [destinations] using Ne.symm h7) s

/-- Settles O51: CMP sets E exactly for equal registers and changes no register, and the jumps branch on E. -/
theorem cmpThenJumps : Obligations.CmpThenJumps := by
  intro s a b k ha hb hk
  refine ⟨_, _, _, exec_cmp ha hb s, exec_regA rfl hk _, exec_regA rfl hk _, ?_⟩
  simp only [effect, State.reg_operandReg _ hk, State.setPc_pc, compareFlags_eq, BitVec.toNat_inj]
  exact ⟨fun heq => by simp [heq], fun hne => by simp [hne]⟩

/-- Settles O52: the next cycle's three bytes are memory's, the one just stored among them. -/
theorem storeSeenByNextFetch : Obligations.StoreSeenByNextFetch := by
  intro s t i a v ha hmem hrun hinstr hexec hpc
  have hwf : i.wellFormed = true := by
    rcases hinstr with ⟨rfl, -⟩ | ⟨rfl, -⟩ <;> simpa [wellFormed_iff, Instr.regOperands] using ha
  obtain rfl := eq_effect_of_exec hwf hexec
  have hread : (effect i s).mem.read s.decSp.sp.toNat = v := by
    rcases hinstr with ⟨rfl, rfl⟩ | ⟨rfl, rfl⟩
    · exact (effect_push_top hmem a).trans (s.decSp.reg_operandReg ha)
    · exact effect_call_top hmem a
  have hstatus : (effect i s).status = .running := by
    rcases hinstr with ⟨rfl, -⟩ | ⟨rfl, -⟩ <;> exact hrun
  refine ⟨bytesAtPc (effect i s), ⟨hstatus, hpc, rfl, rfl, rfl⟩, fun hat => ?_, fun hat => ?_, fun hat => ?_⟩ <;>
    rwa [hat] at hread

end Sys2Proof.Machine

/-! ## What a cycle does not read -/

namespace Sys2Proof.Machine

/-- The same state with other values in `G`, `L` and the output. -/
def State.withUnread (s : State) (g l : Bool) (o : List Byte) : State :=
  { s with fl := { s.fl with g := g, l := l }, out := o }

theorem fetchDecode_withUnread (s : State) (g l : Bool) (o : List Byte) :
    fetchDecode (s.withUnread g l o) = fetchDecode s := rfl

/-- No handler reads `G`, `L` or the output. -/
theorem effect_withUnread (i : Instr) (s : State) (g l : Bool) (o : List Byte) :
    let u := effect i (s.withUnread g l o)
    let t := effect i s
    u.regs = t.regs ∧ u.pc = t.pc ∧ u.mem = t.mem ∧ u.status = t.status ∧ u.fl.e = t.fl.e := by
  cases i <;> exact ⟨rfl, rfl, rfl, rfl, rfl⟩

/-- Settles O53: fetch, decode, the record of an error and every effect are functions of the other fields. -/
theorem greaterLessAndOutputUnread : Obligations.GreaterLessAndOutputUnread := by
  intro s t g l o hstep
  have hfetch := fetchDecode_withUnread s g l o
  obtain ⟨hrun, ⟨e, herr, rfl⟩ | ⟨i, hdec, rfl⟩⟩ := step_fetchDecode_cases hstep
  · exact ⟨takeError e (s.withUnread g l o), step_of_fetchDecode_error hrun (hfetch.trans herr), rfl, rfl, rfl, rfl, rfl⟩
  · exact ⟨effect i (s.withUnread g l o), step_of_fetchDecode_ok hrun (hfetch.trans hdec), effect_withUnread i s g l o⟩

/-- Fetch and decode read memory at the three bytes from `pc` on alone. -/
theorem fetchDecode_setMem {s : State} {m : Memory} (hop : m.read s.pc = s.mem.read s.pc)
    (ha : m.read (s.pc + 1) = s.mem.read (s.pc + 1)) (hb : m.read (s.pc + 2) = s.mem.read (s.pc + 2)) :
    fetchDecode (s.setMem m) = fetchDecode s := by
  by_cases hpc : s.pc ≤ 253
  · have hbytes : bytesAtPc (s.setMem m) = bytesAtPc s := by
      simp [bytesAtPc, hop, ha, hb]
    rw [fetchDecode_inRange hpc, fetchDecode_inRange (s := s.setMem m) hpc, hbytes]
  · have htop : 254 ≤ s.pc := by omega
    rw [fetchDecode_outOfRange htop, fetchDecode_outOfRange (s := s.setMem m) htop]
    rfl

/-- A handler reads memory at SP alone: POP and RET the byte there, the others none. -/
theorem effect_setMem (i : Instr) {s : State} {m : Memory} (hsp : m.read s.sp.toNat = s.mem.read s.sp.toNat) :
    let u := effect i (s.setMem m)
    let t := effect i s
    u.regs = t.regs ∧ u.pc = t.pc ∧ u.fl = t.fl ∧ u.status = t.status ∧ u.out = t.out := by
  cases i
  case pop | ret =>
    simp only [effect, State.setMem_mem, State.sp_setMem, hsp]
    exact ⟨rfl, rfl, rfl, rfl, rfl⟩
  all_goals exact ⟨rfl, rfl, rfl, rfl, rfl⟩

/-- Settles O54: memory is read by the fetch and by a pop, and a taken error reads none. -/
theorem readsOnlyFetchAndStack : Obligations.ReadsOnlyFetchAndStack := by
  intro s t m hstep hop ha hb hsp
  have hfetch := fetchDecode_setMem hop ha hb
  obtain ⟨hrun, ⟨e, herr, rfl⟩ | ⟨i, hdec, rfl⟩⟩ := step_fetchDecode_cases hstep
  · exact ⟨takeError e (s.setMem m), step_of_fetchDecode_error hrun (hfetch.trans herr), rfl, rfl, rfl, rfl, rfl⟩
  · exact ⟨effect i (s.setMem m), step_of_fetchDecode_ok hrun (hfetch.trans hdec), effect_setMem i hsp⟩

end Sys2Proof.Machine

/-! ## Reset, construction and every run (R25, R104, R105) -/

namespace Sys2Proof.Machine

/-- Settles O1, by evaluating the empty machine's fields. -/
theorem resetValues : Obligations.ResetValues :=
  ⟨by decide, rfl, rfl, rfl, fun _ => rfl, rfl, rfl⟩

/-- Settles O9: below 256 the memory is the one `Memory.write` gives, whose laws are the clauses. -/
theorem memWriteChecksBounds : Obligations.MemWriteChecksBounds := fun a v s hmem =>
  ⟨fun above => memWrite_outOfRange above v s, fun below =>
    ⟨s.mem.write a v, memWrite_inRange below v s, Memory.write_wf hmem v below, Memory.read_write_same hmem a v,
      fun _ hne => Memory.read_write_ne s.mem v hne⟩⟩

/-- The bytes written one after the other from an address on (`loadFrom_fits`). -/
def Memory.writeBytes : Memory → Nat → List Byte → Memory
  | m, _, [] => m
  | m, a, b :: rest => (m.write a b).writeBytes (a + 1) rest

theorem Memory.writeBytes_wf {bytes : List Byte} {m : Memory} (h : m.wf = true) {a : Nat}
    (hfit : a + bytes.length ≤ 256) : (m.writeBytes a bytes).wf = true := by
  induction bytes generalizing m a with
  | nil => exact h
  | cons b rest ih =>
    rw [List.length_cons] at hfit
    exact ih (Memory.write_wf h b (by omega)) (by omega)

theorem Memory.read_writeBytes_below (bytes : List Byte) (m : Memory) {a p : Nat} (h : p < a) :
    (m.writeBytes a bytes).read p = m.read p := by
  induction bytes generalizing m a with
  | nil => rfl
  | cons b rest ih => rw [writeBytes, ih _ (by omega), Memory.read_write_ne _ _ (by omega)]

/-- Byte `k` of the bytes written is read back at the `k`th address; beyond them nothing changed. -/
theorem Memory.read_writeBytes {bytes : List Byte} {m : Memory} (h : m.wf = true) {a : Nat}
    (hfit : a + bytes.length ≤ 256) (k : Nat) :
    (m.writeBytes a bytes).read (a + k) = (bytes[k]?).getD (m.read (a + k)) := by
  induction bytes generalizing m a k with
  | nil => rfl
  | cons b rest ih =>
    rw [List.length_cons] at hfit
    cases k with
    | zero =>
      rw [writeBytes, Memory.read_writeBytes_below _ _ (by omega), Nat.add_zero, Memory.read_write_same h]
      rfl
    | succ k =>
      rw [writeBytes, show a + (k + 1) = a + 1 + k by omega, ih (Memory.write_wf h b (by omega)) (by omega),
        Memory.read_write_ne _ _ (by omega), List.getElem?_cons_succ]

/-- Loading an image that fits is writing its bytes. -/
theorem loadFrom_fits {image : List Byte} {a : Nat} (hfit : a + image.length ≤ 256) (s : State) :
    loadFrom a image s = s.setMem (s.mem.writeBytes a image) := by
  induction image generalizing a s with
  | nil => rfl
  | cons b rest ih =>
    rw [List.length_cons] at hfit
    rw [loadFrom, memWrite_inRange (by omega)]
    exact ih (by omega) _

/-- Loading stops with the error of the write at 256, after the bytes before it. -/
theorem loadFrom_oversized {image : List Byte} {a : Nat} (ha : a ≤ 256) (hlong : 256 < a + image.length) (s : State) :
    loadFrom a image s =
      takeError (.memoryBounds 256) (s.setMem (s.mem.writeBytes a (image.take (256 - a)))) := by
  induction image generalizing a s with
  | nil =>
    rw [List.length_nil] at hlong
    omega
  | cons b rest ih =>
    rw [List.length_cons] at hlong
    rcases Nat.lt_or_eq_of_le ha with hlt | rfl
    · rw [loadFrom, memWrite_inRange hlt, show 256 - a = 256 - (a + 1) + 1 by omega, List.take_succ_cons]
      exact ih hlt (by omega) _
    · rw [loadFrom, memWrite_outOfRange (by omega)]
      rfl

/-- The memory a constructed core starts with. -/
def imageMemory (image : List Byte) : Memory := Memory.writeBytes [] 0 (image.take 256)

theorem construct_fits {image : List Byte} (h : image.length ≤ 256) :
    construct image = State.reset.setMem (imageMemory image) := by
  rw [imageMemory, List.take_of_length_le h]
  exact loadFrom_fits (a := 0) (by omega) State.reset

theorem construct_oversized {image : List Byte} (h : 256 < image.length) :
    construct image = takeError (.memoryBounds 256) (State.reset.setMem (imageMemory image)) :=
  loadFrom_oversized (a := 0) (by omega) (by omega) State.reset

theorem imageMemory_fits (image : List Byte) : 0 + (image.take 256).length ≤ 256 := by
  rw [List.length_take]
  omega

theorem imageMemory_wf (image : List Byte) : (imageMemory image).wf = true :=
  Memory.writeBytes_wf (m := []) rfl (imageMemory_fits image)

/-- The image's bytes up to 256, and zero from its length on. -/
theorem read_imageMemory (image : List Byte) (k : Nat) :
    (imageMemory image).read k = ((image.take 256)[k]?).getD 0 := by
  have h := Memory.read_writeBytes (m := []) rfl (imageMemory_fits image) k
  rwa [Nat.zero_add] at h

theorem read_imageMemory_getElem {image : List Byte} {k : Nat} (h : k < image.length) (hk : k < 256) :
    (imageMemory image).read k = image[k] := by
  rw [read_imageMemory, List.getElem?_take_of_lt hk, List.getElem?_eq_getElem h, Option.getD_some]

/-- Settles O3: construction is the reset state with the image's memory. -/
theorem constructLoadsImage : Obligations.ConstructLoadsImage := by
  intro image hfit
  rw [construct_fits hfit]
  refine ⟨fun k h => read_imageMemory_getElem h (by omega), fun a ha => ?_, rfl⟩
  rw [State.setMem_mem, read_imageMemory, List.take_of_length_le hfit, List.getElem?_eq_none ha]
  rfl

/-- Settles O4: the load's error is taken at reset's pc, and a faulted state keeps every run. -/
theorem oversizedImageFaults : Obligations.OversizedImageFaults := by
  intro image hlong
  rw [construct_oversized hlong]
  exact ⟨fun k h hk => read_imageMemory_getElem h hk, rfl, hostRun_faulted rfl⟩

theorem reset_setMem_inv {m : Memory} (h : m.wf = true) : (State.reset.setMem m).Inv :=
  ⟨h, invariantAtReset.pcBound, invariantAtReset.flagsExclusive, trivial⟩

/-- Settles O5: an image that does not fit leaves the record the invariant allows at `pc` 0. -/
theorem constructMeetsInvariant : Obligations.ConstructMeetsInvariant := by
  intro image
  have hinv := reset_setMem_inv (imageMemory_wf image)
  rcases Nat.lt_or_ge 256 image.length with hlong | hfit
  · rw [construct_oversized hlong]
    exact ⟨hinv.memWf, hinv.pcBound, hinv.flagsExclusive, rfl, .inr (.inl ⟨rfl, rfl, .inr rfl⟩)⟩
  · rw [construct_fits hfit]
    exact hinv

/-- Settles O7: construction meets the invariant and every step keeps it. -/
theorem everyRunMeetsInvariant : Obligations.EveryRunMeetsInvariant := fun image n =>
  hostRun_induction stepKeepsInvariant (constructMeetsInvariant image) n

end Sys2Proof.Machine

/-! ## What the host sees (R18, R98, R100) -/

namespace Sys2Proof.Machine

/-- FL's bits are its three flags in order. -/
theorem toBits_getLsbD (f : Flags) :
    f.toBits.getLsbD 0 = f.e ∧ f.toBits.getLsbD 1 = f.g ∧ f.toBits.getLsbD 2 = f.l := by
  obtain ⟨e, g, l⟩ := f
  revert e g l
  decide

theorem traceByte_inRange {a : Nat} (h : a < 256) (s : State) : traceByte s a = s.mem.read a :=
  if_neg (Nat.not_le.2 h)

/-- Settles O57: both observations are the fields themselves, and memory's in address order. -/
theorem inspectAndTraceShowState : Obligations.InspectAndTraceShowState := by
  intro s
  obtain ⟨he, hg, hl⟩ := toBits_getLsbD s.fl
  refine ⟨fun r h => ?_, s.regs.length_toList, fun p hp => ?_, ?_, rfl, he, hg, hl, rfl, rfl, rfl, rfl, rfl,
    fun k hk hp => ?_⟩
  · simp [inspect, h]
  · simp [inspect, Config.memSize, hp]
  · simp [inspect, Config.memSize]
  · have hbyte := traceByte_inRange hp s
    interval_cases k <;> exact congrArg some hbyte

end Sys2Proof.Machine

/-! ## The loader (R53, R90, R106) -/

namespace Sys2Proof.Machine

/-- Settles O56: booting answers what loading answers, the constructed core in place of the image. -/
theorem loadErrorBuildsNoCore : Obligations.LoadErrorBuildsNoCore :=
  ⟨rfl, fun file => ⟨fun e h => by rw [bootListing, h], fun image h => by rw [bootListing, h]⟩⟩

theorem hash_notMem_of_blanksOnly {cs : List Char} (h : BlanksOnly cs) : '#' ∉ cs :=
  fun hmem => absurd (h '#' hmem).1 (by decide)

theorem newline_notMem_of_blanksOnly {cs : List Char} (h : BlanksOnly cs) : '\n' ∉ cs := fun hmem => (h _ hmem).2 rfl

/-- What the loader reads of a line: the token between the white space. -/
theorem trimBlanks_stripComment {before token after : List Char} (hb : BlanksOnly before) (ha : BlanksOnly after)
    (hhash : '#' ∉ token) (hf : ∀ c, token.head? = some c → isBlank c = false)
    (hl : ∀ c, token.getLast? = some c → isBlank c = false) (comment : Option (List Char)) :
    trimBlanks (stripComment (before ++ token ++ after ++ commentText comment)) = token := by
  have hbody : '#' ∉ before ++ token ++ after := by
    simp [hash_notMem_of_blanksOnly hb, hash_notMem_of_blanksOnly ha, hhash]
  rw [stripComment_comment hbody, trimBlanks_token hb ha hf hl]

/-- The character of a binary digit. -/
def digitChar (b : Bool) : Char := if b then '1' else '0'

theorem digitChar_eq_or (b : Bool) : digitChar b = '0' ∨ digitChar b = '1' := by
  cases b
  · exact .inl rfl
  · exact .inr rfl

theorem mem_digits {digits : List Bool} {c : Char} (h : c ∈ digits.map digitChar) : c = '0' ∨ c = '1' := by
  obtain ⟨b, -, rfl⟩ := List.mem_map.1 h
  exact digitChar_eq_or b

theorem isBlank_digit {digits : List Bool} {c : Char} (h : c ∈ digits.map digitChar) : isBlank c = false := by
  rcases mem_digits h with rfl | rfl <;> rfl

theorem notMem_digits {c : Char} (h0 : c ≠ '0') (h1 : c ≠ '1') (digits : List Bool) : c ∉ digits.map digitChar :=
  fun h => (mem_digits h).elim h0 h1

/-- Reading the digits' characters gives the digits' value. -/
theorem binaryValue_digits (digits : List Bool) :
    binaryValue (digits.map digitChar) = digits.foldl (fun n b => 2 * n + b.toNat) 0 := by
  rw [binaryValue, List.foldl_map]
  congr 1
  funext n b
  cases b <;> rfl

/-- One to eight digits are a byte, the first the most significant. -/
theorem parseToken_digits {digits : List Bool} (hne : digits ≠ []) (hlen : digits.length ≤ 8) :
    parseToken (digits.map digitChar) =
      some (BitVec.ofNat 8 (digits.foldl (fun n b => 2 * n + b.toNat) 0)) := by
  have hall : (digits.map digitChar).all isBinaryDigit = true :=
    List.all_eq_true.2 fun c hc => by rcases mem_digits hc with rfl | rfl <;> rfl
  rw [parseToken, if_pos (by simp [hlen, hne, hall]), binaryValue_digits]
  rfl

theorem ListingLine.Accepted.trimmed {line : ListingLine} (h : line.Accepted) :
    trimBlanks (stripComment line.text) = line.digits.map digitChar := by
  obtain ⟨hb, ha, -, -⟩ := h
  exact trimBlanks_stripComment hb ha (notMem_digits (by decide) (by decide) _)
    (fun c hc => isBlank_digit (List.mem_of_head? hc)) (fun c hc => isBlank_digit (List.mem_of_getLast? hc)) _

theorem ListingLine.Accepted.oneLine {line : ListingLine} (h : line.Accepted) : '\n' ∉ line.text := by
  obtain ⟨hb, ha, -, hc⟩ := h
  have hd : '\n' ∉ line.digits.map digitChar := notMem_digits (by decide) (by decide) _
  have hparts : '\n' ∉ line.before ++ line.digits.map digitChar ++ line.after ++ commentText line.comment := by
    simp only [List.mem_append, not_or]
    exact ⟨⟨⟨newline_notMem_of_blanksOnly hb, hd⟩, newline_notMem_of_blanksOnly ha⟩, hc⟩
  exact hparts

/-- The loader makes of accepted lines the bytes they stand for. -/
theorem parseLines_accepted {lines : List ListingLine} (h : ∀ line ∈ lines, line.Accepted) :
    parseLines (lines.map ListingLine.text) = .ok (lines.filterMap ListingLine.byte?) := by
  induction lines with
  | nil => rfl
  | cons line rest ih =>
    obtain ⟨hline, hrest⟩ := List.forall_mem_cons.1 h
    have htrim := hline.trimmed
    obtain ⟨-, -, hlen, -⟩ := hline
    rw [List.map_cons, parseLines_cons, htrim, ih hrest]
    by_cases hd : line.digits = []
    · simp [hd, ListingLine.byte?]
    · have hbyte : line.byte? = some (BitVec.ofNat 8 (line.digits.foldl (fun n b => 2 * n + b.toNat) 0)) := by
        simp [ListingLine.byte?, hd]
      rw [if_neg (by simpa using hd), parseToken_digits hd hlen, List.filterMap_cons_some hbyte]
      rfl

/-- Loading joined lines parses them: the empty listing's one empty line gives no byte. -/
theorem loadImage_joinLines {lines : List (List Char)} (h : ∀ line ∈ lines, '\n' ∉ line) :
    loadImage (some (joinLines lines)) = parseLines lines := by
  rw [loadImage, listingLines_joinLines h]
  split
  · next hnil =>
    subst hnil
    rfl
  · rfl

/-- Settles O55: the text is cut into the lines it was joined from, and each line into its digits. -/
theorem listingLoadsItsBytes : Obligations.ListingLoadsItsBytes := by
  intro lines h
  have hcut : ∀ line ∈ lines.map ListingLine.text, '\n' ∉ line := by
    simpa using fun line hl => (h line hl).oneLine
  rw [loadImage_joinLines hcut, parseLines_accepted h]

theorem BadToken.parseToken_eq_none {token : List Char} (h : BadToken token) : parseToken token = none := by
  refine if_neg fun hgood => ?_
  simp only [Bool.and_eq_true, decide_eq_true_eq, List.all_eq_true] at hgood
  obtain ⟨⟨hlen, -⟩, hall⟩ := hgood
  rcases h.bad with hlong | ⟨c, hc, h0, h1⟩
  · omega
  · simpa [isBinaryDigit, h0, h1] using hall c hc

theorem BadToken.ne_nil {token : List Char} (h : BadToken token) : token ≠ [] := by
  rintro rfl
  obtain ⟨c, hc, -⟩ := h.firstNotBlank
  cases hc

/-- A line that does not parse spoils the listing, whatever the lines before and after it are. -/
theorem parseLines_of_bad_line {lines : List (List Char)} {line : List Char} (hmem : line ∈ lines)
    (hne : trimBlanks (stripComment line) ≠ []) (hbad : parseToken (trimBlanks (stripComment line)) = none) :
    parseLines lines = .error .loadError := by
  induction lines with
  | nil => cases hmem
  | cons first rest ih =>
    rw [parseLines_cons]
    rcases List.mem_cons.1 hmem with rfl | hrest
    · rw [if_neg hne, hbad]
    · rw [ih hrest]
      split
      · rfl
      · split <;> rfl

/-- Settles O58: trimmed, the line is its token, which does not parse. -/
theorem badTokenIsLoadError : Obligations.BadTokenIsLoadError := by
  intro lines before token after comment hcut hb htoken ha hmem
  obtain ⟨first, hfirst, hfirstBlank⟩ := htoken.firstNotBlank
  obtain ⟨last, hlast, hlastBlank⟩ := htoken.lastNotBlank
  have htrim := trimBlanks_stripComment hb ha htoken.noComment
    (fun c hc => by rwa [Option.some.inj (hc.symm.trans hfirst)])
    (fun c hc => by rwa [Option.some.inj (hc.symm.trans hlast)]) comment
  have hload : loadImage (some (joinLines lines)) = .error .loadError := by
    rw [loadImage_joinLines hcut]
    exact parseLines_of_bad_line hmem (by rw [htrim]; exact htoken.ne_nil)
      (by rw [htrim]; exact htoken.parseToken_eq_none)
  obtain ⟨hboot, -⟩ := loadErrorBuildsNoCore.2 (some (joinLines lines))
  exact ⟨hload, hboot _ hload⟩

end Sys2Proof.Machine
